-- ==== Sys2Proof/Word.lean ====
section
/-! DEFINITION. The word types of the core (00_scope.md R6, R8, R9). -/

namespace Sys2Proof

/-- A `u8`: a general register, a timer, a memory byte, an immediate `nn`. -/
abbrev Byte := BitVec 8

/-- A `u16`: an instruction word, `PC`, `I`, a call-stack cell, an error latch. -/
abbrev Word := BitVec 16

/-- A `u12`: the immediate address `nnn`. -/
abbrev Imm12 := BitVec 12

/-- The number of a general register, 0 to 15 (10_state.md R21: an index above 15 cannot arise). -/
abbrev RegIdx := Fin 16

/-- The number of a key, 0 to 15 (10_state.md R31). -/
abbrev KeyIdx := Fin 16

end Sys2Proof
end

