-- ==== Sys2Proof/WellFormed.lean ====
section
/-! DEFINITION. When a term of `Instr` is an instruction of the machine. The widths of the fields are in
their types; what is left to check is that two fields read from the same bits agree. -/

namespace Sys2Proof

/-- The register number that the top nibble of `nnn` names (30_encoding.md R92: in BNNN "the bits 11..8 are
read both as the top of `nnn` and as `x`"). -/
def topNibble (nnn : Imm12) : RegIdx := ⟨nnn.toNat / 256, by omega⟩

/-- The check: in BNNN the field `x` is the top nibble of `nnn`. -/
def WellFormed : Instr → Bool
  | .jpOffset nnn x => decide (x = topNibble nnn)
  | .cls | .ret | .jp _ | .call _ | .seImm _ _ | .sneImm _ _ | .seReg _ _ | .ldImm _ _ | .addImm _ _
  | .ldReg _ _ | .orReg _ _ | .andReg _ _ | .xorReg _ _ | .addReg _ _ | .subReg _ _ | .shr _ _
  | .subnReg _ _ | .shl _ _ | .sneReg _ _ | .ldI _ | .rnd _ _ | .drw _ _ _ | .skp _ | .sknp _
  | .ldVxDt _ | .ldVxK _ | .ldDtVx _ | .ldStVx _ | .addIVx _ | .ldFVx _ | .ldBVx _
  | .storeRegs _ | .loadRegs _ => true

end Sys2Proof
end

