-- ==== Sys2Proof/Decode.lean ====
section
/-! DEFINITION. Decoding (30_encoding.md R90 to R97, 70_reset_and_hazards.md R282), total and rejecting by
name; the encoder written from the same table; and the table itself as data (R96). -/

namespace Sys2Proof

/-! ### Fields of a word (00_scope.md R11, 30_encoding.md R91) -/

/-- `code = op[15:12]` -/
def fieldCode (op : Word) : Nat := op.toNat / 4096
/-- `x = op[11:8]` -/
def fieldX (op : Word) : RegIdx := ⟨op.toNat / 256 % 16, by omega⟩
/-- `y = op[7:4]` -/
def fieldY (op : Word) : RegIdx := ⟨op.toNat / 16 % 16, by omega⟩
/-- `n = op[3:0]` -/
def fieldN (op : Word) : Fin 16 := ⟨op.toNat % 16, by omega⟩
/-- `nn = op[7:0]` -/
def fieldNN (op : Word) : Byte := BitVec.ofNat 8 op.toNat
/-- `nnn = op[11:0]` -/
def fieldNNN (op : Word) : Imm12 := BitVec.ofNat 12 op.toNat

/-! ### Decoding -/

/-- Family 8, selected by `n` (R95). -/
def decodeFamily8 (x y : RegIdx) : Nat → Option Instr
  | 0x0 => some (.ldReg x y)
  | 0x1 => some (.orReg x y)
  | 0x2 => some (.andReg x y)
  | 0x3 => some (.xorReg x y)
  | 0x4 => some (.addReg x y)
  | 0x5 => some (.subReg x y)
  | 0x6 => some (.shr x y)
  | 0x7 => some (.subnReg x y)
  | 0xE => some (.shl x y)
  | _ => none

/-- Family E, selected by `nn` (R95). -/
def decodeFamilyE (x : RegIdx) : Nat → Option Instr
  | 0x9E => some (.skp x)
  | 0xA1 => some (.sknp x)
  | _ => none

/-- Family F, selected by `nn` (R95). -/
def decodeFamilyF (x : RegIdx) : Nat → Option Instr
  | 0x07 => some (.ldVxDt x)
  | 0x0A => some (.ldVxK x)
  | 0x15 => some (.ldDtVx x)
  | 0x18 => some (.ldStVx x)
  | 0x1E => some (.addIVx x)
  | 0x29 => some (.ldFVx x)
  | 0x33 => some (.ldBVx x)
  | 0x55 => some (.storeRegs x)
  | 0x65 => some (.loadRegs x)
  | _ => none

/-- The dispatcher's decision tree (R282); strict (R94): every fixed bit of a row is examined.
`none` is the illegal word of R97. -/
def decodeWord (op : Word) : Option Instr :=
  match fieldCode op with
  | 0x0 => if op = 0x00E0#16 then some .cls else if op = 0x00EE#16 then some .ret else none
  | 0x1 => some (.jp (fieldNNN op))
  | 0x2 => some (.call (fieldNNN op))
  | 0x3 => some (.seImm (fieldX op) (fieldNN op))
  | 0x4 => some (.sneImm (fieldX op) (fieldNN op))
  | 0x5 => if (fieldN op).val = 0 then some (.seReg (fieldX op) (fieldY op)) else none
  | 0x6 => some (.ldImm (fieldX op) (fieldNN op))
  | 0x7 => some (.addImm (fieldX op) (fieldNN op))
  | 0x8 => decodeFamily8 (fieldX op) (fieldY op) (fieldN op).val
  | 0x9 => if (fieldN op).val = 0 then some (.sneReg (fieldX op) (fieldY op)) else none
  | 0xA => some (.ldI (fieldNNN op))
  | 0xB => some (.jpOffset (fieldNNN op) (fieldX op))
  | 0xC => some (.rnd (fieldX op) (fieldNN op))
  | 0xD => some (.drw (fieldX op) (fieldY op) (fieldN op))
  | 0xE => decodeFamilyE (fieldX op) (fieldNN op).toNat
  | 0xF => decodeFamilyF (fieldX op) (fieldNN op).toNat
  | _ => none

/-- The word of two bytes, the first at the lower address: big-endian (20_memory.md R63, R65). -/
def wordOfBytes (hi lo : Byte) : Word := BitVec.ofNat 16 (hi.toNat * 256 + lo.toNat)

/-- The byte at the lower address, bits 15 to 8. -/
def highByte (op : Word) : Byte := BitVec.ofNat 8 (op.toNat / 256)
/-- The byte at the higher address, bits 7 to 0. -/
def lowByte (op : Word) : Byte := BitVec.ofNat 8 op.toNat

/-- Why bytes are not an instruction. -/
inductive DecodeReject where
  /-- fewer than the two bytes of an instruction (R90) -/
  | tooShort
  /-- the word matches no row of R96 (R97) -/
  | unmatchedWord (op : Word)
  deriving DecidableEq, Repr

/-- Decoding of a byte string: the instruction and the bytes after it, or the rejection. -/
def decode : List Byte → Except DecodeReject (Instr × List Byte)
  | hi :: lo :: rest =>
    match decodeWord (wordOfBytes hi lo) with
    | some i => .ok (i, rest)
    | none => .error (.unmatchedWord (wordOfBytes hi lo))
  | _ => .error .tooShort

/-! ### Encoding (R92, R96) -/

/-- Format A: `code` and `nnn`. -/
def formatA (code : Nat) (nnn : Imm12) : Word := BitVec.ofNat 16 (code * 4096 + nnn.toNat)
/-- Format I: `code`, `x` and `nn`; also format X, whose `nn` is the fixed function. -/
def formatI (code : Nat) (x : RegIdx) (nn : Byte) : Word := BitVec.ofNat 16 (code * 4096 + x.val * 256 + nn.toNat)
/-- Format D: `code`, `x`, `y` and `n`; also format R, whose `n` is the fixed function. -/
def formatD (code : Nat) (x y : RegIdx) (n : Fin 16) : Word :=
  BitVec.ofNat 16 (code * 4096 + x.val * 256 + y.val * 16 + n.val)

/-- The word of an instruction. In BNNN the bits of `x` are the top bits of `nnn`. -/
def encode : Instr → Word
  | .cls => 0x00E0#16
  | .ret => 0x00EE#16
  | .jp nnn => formatA 0x1 nnn
  | .call nnn => formatA 0x2 nnn
  | .seImm x nn => formatI 0x3 x nn
  | .sneImm x nn => formatI 0x4 x nn
  | .seReg x y => formatD 0x5 x y 0x0
  | .ldImm x nn => formatI 0x6 x nn
  | .addImm x nn => formatI 0x7 x nn
  | .ldReg x y => formatD 0x8 x y 0x0
  | .orReg x y => formatD 0x8 x y 0x1
  | .andReg x y => formatD 0x8 x y 0x2
  | .xorReg x y => formatD 0x8 x y 0x3
  | .addReg x y => formatD 0x8 x y 0x4
  | .subReg x y => formatD 0x8 x y 0x5
  | .shr x y => formatD 0x8 x y 0x6
  | .subnReg x y => formatD 0x8 x y 0x7
  | .shl x y => formatD 0x8 x y 0xE
  | .sneReg x y => formatD 0x9 x y 0x0
  | .ldI nnn => formatA 0xA nnn
  | .jpOffset nnn _ => formatA 0xB nnn
  | .rnd x nn => formatI 0xC x nn
  | .drw x y n => formatD 0xD x y n
  | .skp x => formatI 0xE x 0x9E#8
  | .sknp x => formatI 0xE x 0xA1#8
  | .ldVxDt x => formatI 0xF x 0x07#8
  | .ldVxK x => formatI 0xF x 0x0A#8
  | .ldDtVx x => formatI 0xF x 0x15#8
  | .ldStVx x => formatI 0xF x 0x18#8
  | .addIVx x => formatI 0xF x 0x1E#8
  | .ldFVx x => formatI 0xF x 0x29#8
  | .ldBVx x => formatI 0xF x 0x33#8
  | .storeRegs x => formatI 0xF x 0x55#8
  | .loadRegs x => formatI 0xF x 0x65#8

/-- The two bytes of an instruction in memory order (R90). -/
def encodeBytes (i : Instr) : List Byte := [highByte (encode i), lowByte (encode i)]

/-! ### The opcode table as data (R94, R96) -/

/-- A row: its mnemonic as spec/opcode_table.json spells it, its `match` and its `mask`. -/
structure OpcodeRow where
  mnemonic : String
  value    : Word
  mask     : Word
  deriving DecidableEq, Repr

/-- A word selects a row when `op and mask = match` (R94). -/
def OpcodeRow.selects (r : OpcodeRow) (op : Word) : Bool := decide (op &&& r.mask = r.value)

/-- The row of R96 an instruction belongs to. -/
def Instr.row : Instr → OpcodeRow
  | .cls => ⟨"CLS", 0x00E0#16, 0xFFFF#16⟩
  | .ret => ⟨"RET", 0x00EE#16, 0xFFFF#16⟩
  | .jp _ => ⟨"JP_nnn", 0x1000#16, 0xF000#16⟩
  | .call _ => ⟨"CALL_nnn", 0x2000#16, 0xF000#16⟩
  | .seImm _ _ => ⟨"SE_Vx__nn", 0x3000#16, 0xF000#16⟩
  | .sneImm _ _ => ⟨"SNE_Vx__nn", 0x4000#16, 0xF000#16⟩
  | .seReg _ _ => ⟨"SE_Vx__Vy", 0x5000#16, 0xF00F#16⟩
  | .ldImm _ _ => ⟨"LD_Vx__nn", 0x6000#16, 0xF000#16⟩
  | .addImm _ _ => ⟨"ADD_Vx__nn", 0x7000#16, 0xF000#16⟩
  | .ldReg _ _ => ⟨"LD_Vx__Vy", 0x8000#16, 0xF00F#16⟩
  | .orReg _ _ => ⟨"OR_Vx__Vy", 0x8001#16, 0xF00F#16⟩
  | .andReg _ _ => ⟨"AND_Vx__Vy", 0x8002#16, 0xF00F#16⟩
  | .xorReg _ _ => ⟨"XOR_Vx__Vy", 0x8003#16, 0xF00F#16⟩
  | .addReg _ _ => ⟨"ADD_Vx__Vy", 0x8004#16, 0xF00F#16⟩
  | .subReg _ _ => ⟨"SUB_Vx__Vy", 0x8005#16, 0xF00F#16⟩
  | .shr _ _ => ⟨"SHR_Vx__Vy", 0x8006#16, 0xF00F#16⟩
  | .subnReg _ _ => ⟨"SUBN_Vx__Vy", 0x8007#16, 0xF00F#16⟩
  | .shl _ _ => ⟨"SHL_Vx__Vy", 0x800E#16, 0xF00F#16⟩
  | .sneReg _ _ => ⟨"SNE_Vx__Vy", 0x9000#16, 0xF00F#16⟩
  | .ldI _ => ⟨"LD_I__nnn", 0xA000#16, 0xF000#16⟩
  | .jpOffset _ _ => ⟨"JP_V0__nnn", 0xB000#16, 0xF000#16⟩
  | .rnd _ _ => ⟨"RND_Vx__nn", 0xC000#16, 0xF000#16⟩
  | .drw _ _ _ => ⟨"DRW_Vx__Vy__n", 0xD000#16, 0xF000#16⟩
  | .skp _ => ⟨"SKP_Vx", 0xE09E#16, 0xF0FF#16⟩
  | .sknp _ => ⟨"SKNP_Vx", 0xE0A1#16, 0xF0FF#16⟩
  | .ldVxDt _ => ⟨"LD_Vx__DT", 0xF007#16, 0xF0FF#16⟩
  | .ldVxK _ => ⟨"LD_Vx__K", 0xF00A#16, 0xF0FF#16⟩
  | .ldDtVx _ => ⟨"LD_DT__Vx", 0xF015#16, 0xF0FF#16⟩
  | .ldStVx _ => ⟨"LD_ST__Vx", 0xF018#16, 0xF0FF#16⟩
  | .addIVx _ => ⟨"ADD_I__Vx", 0xF01E#16, 0xF0FF#16⟩
  | .ldFVx _ => ⟨"LD_F__Vx", 0xF029#16, 0xF0FF#16⟩
  | .ldBVx _ => ⟨"LD_B__Vx", 0xF033#16, 0xF0FF#16⟩
  | .storeRegs _ => ⟨"LD__I___Vx", 0xF055#16, 0xF0FF#16⟩
  | .loadRegs _ => ⟨"LD_Vx___I", 0xF065#16, 0xF0FF#16⟩

/-- The 34 rows of R96, in its order. -/
def opcodeTable : List OpcodeRow :=
  ([.cls, .ret, .jp 0, .call 0, .seImm 0 0, .sneImm 0 0, .seReg 0 0, .ldImm 0 0, .addImm 0 0,
    .ldReg 0 0, .orReg 0 0, .andReg 0 0, .xorReg 0 0, .addReg 0 0, .subReg 0 0, .shr 0 0,
    .subnReg 0 0, .shl 0 0] ++
   [.sneReg 0 0, .ldI 0, .jpOffset 0 0, .rnd 0 0, .drw 0 0 0, .skp 0, .sknp 0, .ldVxDt 0, .ldVxK 0,
    .ldDtVx 0, .ldStVx 0, .addIVx 0, .ldFVx 0, .ldBVx 0, .storeRegs 0, .loadRegs 0] : List Instr).map
    Instr.row

/-! ### The host's entry -/

/-- The word whose table bits are `w` (bit 0 least significant, 00_scope.md R9), bits above `nbits` zero. -/
def tableWord (nbits w : Nat) : Word := BitVec.ofNat 16 (w % 2 ^ nbits)

/-- What the decoder reads from the instruction whose table bits are `w`, laid out as two bytes, high byte
first. -/
def decodeTableWord (nbits w : Nat) : Option Instr :=
  match decode [highByte (tableWord nbits w), lowByte (tableWord nbits w)] with
  | .ok (i, _) => some i
  | .error _ => none

end Sys2Proof
end

