-- ==== Sys2Proof/Config.lean ====
section
/-! DEFINITION. What is fixed for the machine: the sizes of 00_scope.md R6, the types of the parameters
of R7, and the two values the spec leaves open, as constants without a body. -/

namespace Sys2Proof

namespace Config

/-- Bytes of memory (R6, 10_state.md R26). -/
abbrev memSize : Nat := 4096

/-- The fixed program start, the Load address and the reset value of `PC` (R6, 20_memory.md R68). -/
abbrev programStart : Nat := 0x200

/-- The last address a fetch may use (20_memory.md R64). -/
abbrev lastFetch : Nat := 4094

/-- `STACK_DEPTH` (R7). -/
abbrev stackDepth : Nat := 16

/-- Columns and rows of the framebuffer (R6). -/
abbrev screenWidth : Nat := 64
abbrev screenHeight : Nat := 32

end Config

/-- `FONT_BASE` with its constraint `FONT_BASE + 80 <= 0x200` (R7): the numbers 0 to 432. -/
abbrev FontBase := Fin 433

/-- `SHIFT_SOURCE` (R7, 41_alu.md R150). -/
inductive ShiftSource where
  | vx | vy
  deriving DecidableEq, Repr

/-- `JUMP_OFFSET_REG` (R7, 40_control_flow.md R128). -/
inductive JumpOffsetReg where
  | v0 | vx
  deriving DecidableEq, Repr

/-- `EDGE_POLICY` (R7, 43_display.md R195): `CLIP` is its only value; `WRAP` has no definition and
cannot be expressed. -/
inductive EdgePolicy where
  | clip
  deriving DecidableEq, Repr

/-- `DRAW_Y_START_MOD` (R7, 43_display.md R196). -/
inductive DrawYStartMod where
  | mod64 | mod32
  deriving DecidableEq, Repr

/-- `KEY_INDEX_POLICY` (R7, 44_keypad_timers.md R213): `FAULT` is its only value. -/
inductive KeyIndexPolicy where
  | fault
  deriving DecidableEq, Repr

/-- The parameters of R7 that a model selects. `STACK_DEPTH` is `Config.stackDepth`, `FONT_DATA` is
`Machine.fontData`, `DECODE_STRICT` (only value `true`) is the form of `decodeWord`, `rnd` is
`Machine.State.rnd`, and the tick to cycle ratio is the schedule `Machine.State.pending`. -/
structure Params where
  fontBase       : FontBase
  shiftSource    : ShiftSource
  jumpOffsetReg  : JumpOffsetReg
  edgePolicy     : EdgePolicy
  drawYStartMod  : DrawYStartMod
  keyIndexPolicy : KeyIndexPolicy
  deriving DecidableEq, Repr

/-- FREE VALUE. The font base of the machine that `State.reset` describes: OPEN in R7 (D2), so no body.
Log entry 2. -/
opaque Config.fontBase : FontBase

/-- FREE VALUE. The byte `rnd` that the host's source supplies with the `k`-th Cycle it issues of its own
accord (41_alu.md R155: a free draw under no law), so no body. Log entry 3. -/
opaque Config.rnd : Nat → Byte

end Sys2Proof
end

