-- ==== Sys2Proof/Machine/Params.lean ====
section
/-! DEFINITION. The parameter values that 00_scope.md R7 gives this hardware. -/

namespace Sys2Proof.Machine

/-- The "value" column of R7; `FONT_BASE` is OPEN and is the constant `Config.fontBase`. -/
def Params.ofSpec : Params where
  fontBase       := Config.fontBase
  shiftSource    := .vx
  jumpOffsetReg  := .v0
  edgePolicy     := .clip
  drawYStartMod  := .mod64
  keyIndexPolicy := .fault

end Sys2Proof.Machine
end

