-- ==== Sys2Proof/Machine/State.lean ====
section
/-! DEFINITION. The state of the core (10_state.md R20), the outcomes a step can have, and reset (R35). -/

namespace Sys2Proof.Machine

/-- `STATUS` (R32): Running is 0, Halted is 1. -/
inductive RunStatus where
  | running | halted
  deriving DecidableEq, Repr

/-- The framebuffer, rows top to bottom, columns left to right (R30). -/
abbrev FrameBuffer := Vector (Vector Bool 64) 32

/-- What an observation reads: one piece of the state of R20 (R36, D32). -/
inductive Observable where
  | v (r : RegIdx)
  | i
  | pc
  | stack (k : Fin 16)
  | sp
  | dt
  | st
  | fb
  | key (k : KeyIdx)
  | mem (a : Fin 4096)
  | status
  | errCause
  | errVal
  | errAddr
  deriving DecidableEq, Repr

/-- The value of a piece of state, in the width R20's rules give it. -/
inductive Observed where
  /-- `V[r]`, `DT`, `ST`, a byte of `M` -/
  | byte (b : Byte)
  /-- `I`, `PC`, a cell of `STACK`, `ERR_VAL`, `ERR_ADDR` -/
  | word (w : Word)
  /-- `SP` -/
  | count (n : Fin 17)
  /-- `FB` -/
  | picture (fb : FrameBuffer)
  /-- `KEY[k]` -/
  | bit (b : Bool)
  /-- `STATUS` -/
  | runStatus (r : RunStatus)
  /-- `ERR_CAUSE` -/
  | code (c : BitVec 3)
  deriving DecidableEq, Repr

/-- What the host may do to the core (70_reset_and_hazards.md R280). -/
inductive Transaction where
  | reset
  | load (bytes : List Byte)
  | cycle (rnd : Byte)
  | tick
  | setKey (k : KeyIdx) (pressed : Bool)
  | observe (what : Observable)
  deriving DecidableEq, Repr

/-- What a transaction answers the host: the "result" column of R280. -/
inductive TransactionResult where
  /-- Reset, Tick and SetKey answer nothing -/
  | silent
  /-- Load or Cycle went through -/
  | ok
  /-- Cycle raised a condition: the triple of 60_exceptions.md R232 -/
  | error (cause : BitVec 3) (val addr : Word)
  /-- Cycle while Halted (60_exceptions.md R240) -/
  | refusedHalted
  /-- Load of more than 3584 bytes (20_memory.md R69) -/
  | romTooLarge
  /-- an observation answers the value it read -/
  | value (seen : Observed)
  deriving DecidableEq, Repr

/-- All the state the spec gives the machine, then the fields that are the model's own (log entries 1 to 6). -/
structure State where
  /-- `V[0]` to `V[15]` (R21) -/
  v        : Vector Byte 16
  /-- `I` (R23) -/
  i        : Word
  /-- `PC` (R24) -/
  pc       : Word
  /-- `STACK[0..15]` (R28) -/
  stack    : Vector Word 16
  /-- `SP`, 0 to 16 (R28) -/
  sp       : Fin 17
  /-- `DT` (R29) -/
  dt       : Byte
  /-- `ST` (R29) -/
  st       : Byte
  /-- `FB` (R30) -/
  fb       : FrameBuffer
  /-- `KEY[0..15]` (R31) -/
  key      : Vector Bool 16
  /-- `M` (R26), the bytes that differ from the background, addresses rising -/
  mem      : List Host.Cell
  /-- `STATUS` (R32) -/
  status   : RunStatus
  /-- `ERR_CAUSE` (R32) -/
  errCause : BitVec 3
  /-- `ERR_VAL` (R32) -/
  errVal   : Word
  /-- `ERR_ADDR` (R32) -/
  errAddr  : Word
  /-- MODEL'S OWN. The parameters of 00_scope.md R7, fixed for the run: no step changes them. -/
  params   : Params
  /-- MODEL'S OWN. The transactions the host has scheduled, next first; none left: the host issues Cycles. -/
  pending  : List Transaction
  /-- MODEL'S OWN. The input `rnd` of the Cycle in progress, else of the last one (41_alu.md R155). -/
  rnd      : Byte
  /-- MODEL'S OWN. How many Cycles have taken a byte from `Config.rnd`. -/
  draws    : Nat
  /-- MODEL'S OWN. What the last transaction answered the host. -/
  result   : TransactionResult
  /-- MODEL'S OWN. The sticky mark of 60_exceptions.md R242: some condition has been raised. -/
  condSeen : Bool
  deriving DecidableEq, Repr

/-- Nothing stops the model with a fault: every condition of the spec is taken (60_exceptions.md R236). -/
inductive Fault where
  deriving DecidableEq, Repr

/-- Why a step has no meaning. -/
inductive Refusal where
  /-- Raised by an arm of `exec` whose instruction has no meaning yet; safe. No arm raises it. -/
  | notModelled (mnemonic : String)
  deriving DecidableEq, Repr

/-- Every piece of state at its reset value (R35), under the parameters `p`. -/
def State.resetWith (p : Params) : State where
  v        := Vector.replicate 16 0x00#8
  i        := 0x0000#16
  pc       := 0x0200#16
  stack    := Vector.replicate 16 0x0000#16
  sp       := 0
  dt       := 0x00#8
  st       := 0x00#8
  fb       := Vector.replicate 32 (Vector.replicate 64 false)
  key      := Vector.replicate 16 false
  mem      := []
  status   := .running
  errCause := 0#3
  errVal   := 0x0000#16
  errAddr  := 0x0000#16
  params   := p
  pending  := []
  rnd      := 0x00#8
  draws    := 0
  result   := .silent
  condSeen := false

/-- The machine right after reset, with the parameter values of R7. -/
def State.reset : State := State.resetWith Params.ofSpec

end Sys2Proof.Machine
end

