-- ==== Sys2Proof/Machine/Memory.lean ====
section
/-! DEFINITION. The memory `M` (10_state.md R26, R33, R35) as a list of the bytes that differ from what
memory holds at reset: addresses strictly rising, and no entry equal to what its address reads as unlisted. -/

namespace Sys2Proof.Machine

/-- `FONT_DATA` (R33): sixteen glyphs of five rows, the top row first. -/
def fontData : List Byte :=
  [0xF0, 0x90, 0x90, 0x90, 0xF0, 0x20, 0x60, 0x20, 0x20, 0x70,
   0xF0, 0x10, 0xF0, 0x80, 0xF0, 0xF0, 0x10, 0xF0, 0x10, 0xF0] ++
  [0x90, 0x90, 0xF0, 0x10, 0x10, 0xF0, 0x80, 0xF0, 0x10, 0xF0,
   0xF0, 0x80, 0xF0, 0x90, 0xF0, 0xF0, 0x10, 0x20, 0x40, 0x40] ++
  [0xF0, 0x90, 0xF0, 0x90, 0xF0, 0xF0, 0x90, 0xF0, 0x10, 0xF0,
   0xF0, 0x90, 0xF0, 0x90, 0x90, 0xE0, 0x90, 0xE0, 0x90, 0xE0] ++
  [0xF0, 0x80, 0x80, 0x80, 0xF0, 0xE0, 0x90, 0x90, 0x90, 0xE0,
   0xF0, 0x80, 0xF0, 0x80, 0xF0, 0xF0, 0x80, 0xF0, 0x80, 0x80]

/-- What an address that is not listed reads as: the reset contents of R35, which are the font at `FONT_BASE`
and 0x00 everywhere else. The font ends below 0x200 (R7), so the program region needs no look at it. -/
def Memory.background (base : FontBase) (a : Nat) : Byte :=
  if Config.programStart ≤ a then 0x00#8
  else if base.val ≤ a then fontData.getD (a - base.val) 0x00#8
  else 0x00#8

/-- The listed byte of an address, if it is listed. -/
def Memory.find? (a : Nat) : List Host.Cell → Option Byte
  | [] => none
  | c :: m => if c.1 = a then some c.2 else Memory.find? a m

/-- The byte at address `a`. -/
def Memory.read (base : FontBase) (m : List Host.Cell) (a : Nat) : Byte :=
  (Memory.find? a m).getD (Memory.background base a)

/-- Lists `b` at `a`, or takes `a` off the list where `b` is what it reads as unlisted (`keep = false`). -/
def Memory.put (a : Nat) (b : Byte) (keep : Bool) : List Host.Cell → List Host.Cell
  | [] => if keep then [(a, b)] else []
  | c :: m =>
    if c.1 < a then c :: Memory.put a b keep m
    else if c.1 = a then (if keep then (a, b) :: m else m)
    else (if keep then (a, b) :: c :: m else c :: m)

/-- The memory after `M[a] <- b`. -/
def Memory.write (base : FontBase) (m : List Host.Cell) (a : Nat) (b : Byte) : List Host.Cell :=
  Memory.put a b (decide (b ≠ Memory.background base a)) m

/-- The canonical form: addresses strictly rising, each below 4096, no entry equal to the background. -/
abbrev Memory.wf (base : FontBase) (m : List Host.Cell) : Prop :=
  m.Pairwise (fun c d => c.1 < d.1) ∧
    ∀ c ∈ m, c.1 < Config.memSize ∧ c.2 ≠ Memory.background base c.1

end Sys2Proof.Machine
end

