-- ==== Sys2Proof/Machine/Ops.lean ====
section
/-! DEFINITION. The named operations over the state: register access, memory access, the call stack, the
framebuffer, the keypad, and raising a condition. -/

namespace Sys2Proof.Machine

/-! ### Registers (10_state.md R21, R23, R24, R29; 00_scope.md R10) -/

/-- `VF`, register 15 (R37). -/
abbrev vf : RegIdx := 15

/-- Read `V[r]`. -/
def State.reg (s : State) (r : RegIdx) : Byte := s.v[r.val]

/-- `V[r] <- b`. -/
def State.setReg (s : State) (r : RegIdx) (b : Byte) : State := { s with v := s.v.set r.val b }

/-- `I <- w`. -/
def State.setI (s : State) (w : Word) : State := { s with i := w }

/-- `PC <- w`. -/
def State.setPc (s : State) (w : Word) : State := { s with pc := w }

/-- `PC <- PC + 2`, on top of the advance (40_control_flow.md R120). -/
def State.skip (s : State) : State := s.setPc (s.pc + 2#16)

/-- `PC <- PC - 2` (44_keypad_timers.md R214). -/
def State.stepBack (s : State) : State := s.setPc (s.pc - 2#16)

/-- `DT <- b`. -/
def State.setDt (s : State) (b : Byte) : State := { s with dt := b }

/-- `ST <- b`. -/
def State.setSt (s : State) (b : Byte) : State := { s with st := b }

/-! ### Conditions (60_exceptions.md) -/

/-- The conditions a Cycle can raise (R230), each with what it reports. -/
inductive Condition where
  /-- the word matches no row -/
  | fatal (op : Word)
  /-- `OutOfBounds.Memory` -/
  | memory (addr : Nat)
  /-- `OutOfBounds.Pc` -/
  | pc (v : Word)
  /-- `OutOfBounds.Key` -/
  | key (k : Byte)
  /-- `StackOverflow`, with the call target -/
  | stackOverflow (target : Word)
  | stackUnderflow
  deriving DecidableEq, Repr

/-- The cause code (R231). -/
def Condition.cause : Condition → BitVec 3
  | .fatal _ => 1#3
  | .memory _ => 2#3
  | .pc _ => 3#3
  | .key _ => 4#3
  | .stackOverflow _ => 5#3
  | .stackUnderflow => 6#3

/-- The recorded `val` (R232). -/
def Condition.val : Condition → Word
  | .fatal op => op
  | .memory a => BitVec.ofNat 16 a
  | .pc v => v
  | .key k => BitVec.ofNat 16 k.toNat
  | .stackOverflow target => target
  | .stackUnderflow => 0#16

/-- The status a raise leaves: Halted is entered only on `Fatal` (R233, R234). -/
def Condition.status (c : Condition) (now : RunStatus) : RunStatus :=
  match c with
  | .fatal _ => .halted
  | .memory _ | .pc _ | .key _ | .stackOverflow _ | .stackUnderflow => now

/-- TAKING A CONDITION (R236, R238): the latches and the answer hold the triple, Fatal halts the core, and
every effect before the raise stays. There is no return from it (R239): the one way back is the Reset
transaction, `State.resetCore`. -/
def State.raise (s : State) (c : Condition) (addr : Word) : State :=
  { s with
    errCause := c.cause
    errVal   := c.val
    errAddr  := addr
    status   := c.status s.status
    result   := .error c.cause c.val addr
    condSeen := true }

/-- The address the executing instruction was fetched from: `PC` was advanced before the execute step and no
instruction that raises has written it since (R232, 10_state.md R24). -/
def State.fetchAddr (s : State) : Word := s.pc - 2#16

/-- A raise in the decode or execute step. -/
def State.raiseHere (s : State) (c : Condition) : State := s.raise c s.fetchAddr

/-- How far the pseudocode of an instruction has come: to its end, or to a raise. -/
inductive Progress where
  | done (s : State)
  | raised (c : Condition) (s : State)
  deriving DecidableEq, Repr

/-- The next state: where the pseudocode raised, the state at that point with the condition taken. -/
def Progress.state : Progress → State
  | .done s => s
  | .raised c s => s.raiseHere c

/-! ### Memory access (20_memory.md) -/

/-- The byte of `M` at `a`. -/
def State.readByte (s : State) (a : Nat) : Byte := Memory.read s.params.fontBase s.mem a

/-- `M[a] <- b`, for an address that exists. -/
def State.writeByte (s : State) (a : Nat) (b : Byte) : State :=
  { s with mem := Memory.write s.params.fontBase s.mem a b }

/-- `MemRead(addr, 1)` (R61). -/
def State.memRead (s : State) (a : Nat) : Except Condition Byte :=
  if a > 4095 then .error (.memory a) else .ok (s.readByte a)

/-- `MemWrite(addr, 1, v)` (R62). -/
def State.memWrite (s : State) (a : Nat) (b : Byte) : Except Condition State :=
  if a > 4095 then .error (.memory a) else .ok (s.writeByte a b)

/-- The two bytes at `a` as a word, big-endian (R63). -/
def State.readWord (s : State) (a : Nat) : Word := wordOfBytes (s.readByte a) (s.readByte (a + 1))

/-- `n` bytes from `a` upward (R70), or the condition of the first address out of range. -/
def State.readBlock (s : State) (a : Nat) : Nat → Except Condition (List Byte)
  | 0 => .ok []
  | n + 1 =>
    match s.memRead a with
    | .error c => .error c
    | .ok b =>
      match s.readBlock (a + 1) n with
      | .error c => .error c
      | .ok bs => .ok (b :: bs)

/-- Stores bytes from `a` upward, one at a time; the first address out of range raises and the bytes before
it stay written (R67, R70, 60_exceptions.md R236). -/
def State.storeBlock (s : State) (a : Nat) : List Byte → Progress
  | [] => .done s
  | b :: bs =>
    match s.memWrite a b with
    | .error c => .raised c s
    | .ok s' => s'.storeBlock (a + 1) bs

/-- Loads registers from `a` upward, one at a time; the first address out of range raises and the registers
before it stay loaded. -/
def State.loadBlock (s : State) (a : Nat) : List RegIdx → Progress
  | [] => .done s
  | r :: rs =>
    match s.memRead a with
    | .error c => .raised c s
    | .ok b => (s.setReg r b).loadBlock (a + 1) rs

/-- Writes a list of bytes at addresses that exist (the Load transaction, R69). -/
def State.writeBytes (s : State) (a : Nat) : List Byte → State
  | [] => s
  | b :: bs => (s.writeByte a b).writeBytes (a + 1) bs

/-! ### The call stack (10_state.md R28) -/

/-- Push; a full stack raises `StackOverflow`, which reports the call target (60_exceptions.md R232). -/
def State.push (s : State) (w target : Word) : Progress :=
  if h : s.sp.val < 16 then
    .done { s with stack := s.stack.set s.sp.val w, sp := ⟨s.sp.val + 1, by omega⟩ }
  else .raised (.stackOverflow target) s

/-- Pop into `PC`; an empty stack raises `StackUnderflow`. The popped cell keeps its bits. -/
def State.popPc (s : State) : Progress :=
  if h : 0 < s.sp.val then
    .done { s with sp := ⟨s.sp.val - 1, by omega⟩, pc := s.stack[s.sp.val - 1] }
  else .raised .stackUnderflow s

/-! ### The framebuffer (10_state.md R30, 43_display.md) -/

/-- `FB[py][px]`. -/
def FrameBuffer.pixel (fb : FrameBuffer) (px : Fin 64) (py : Fin 32) : Bool := fb[py.val][px.val]

/-- `FB[py][px] <- FB[py][px] xor 1`. -/
def FrameBuffer.toggle (fb : FrameBuffer) (px : Fin 64) (py : Fin 32) : FrameBuffer :=
  fb.set py.val (fb[py.val].set px.val (!fb[py.val][px.val]))

/-- All pixels off. -/
def FrameBuffer.clear : FrameBuffer := Vector.replicate 32 (Vector.replicate 64 false)

/-- The host's view of a pixel (R30, R255). -/
def State.pixel (s : State) (px : Fin 64) (py : Fin 32) : Bool := s.fb.pixel px py

/-- `FB <- fb`. -/
def State.setFb (s : State) (fb : FrameBuffer) : State := { s with fb := fb }

/-- A framebuffer and the collision flag so far (R192). -/
structure Blit where
  fb   : FrameBuffer
  coll : Bool
  deriving DecidableEq, Repr

/-- One set sprite bit: the pixel is toggled, and a pixel that was on is a collision (R192). -/
def Blit.hit (b : Blit) (px : Fin 64) (py : Fin 32) : Blit where
  fb   := b.fb.toggle px py
  coll := b.coll || b.fb.pixel px py

/-- The columns `cs` of one sprite row at row `py` (R192): bit 7 of the row is the leftmost pixel (R190); at a
column past the edge the policy says whether to go on, and `CLIP` leaves the loop (R194, R195). -/
def Blit.columns (policy : EdgePolicy) (row : Byte) (sx : Nat) (py : Fin 32) (b : Blit) : List Nat → Blit
  | [] => b
  | c :: cs =>
    if h : sx + c < 64 then
      if row.getLsbD (7 - c) then Blit.columns policy row sx py (b.hit ⟨sx + c, h⟩ py) cs
      else Blit.columns policy row sx py b cs
    else
      match policy with
      | .clip => b

/-- The sprite rows from row `py` downward; at a row past the edge `CLIP` leaves the loop (R192, R194). -/
def Blit.rows (policy : EdgePolicy) (sx : Nat) (py : Nat) (b : Blit) : List Byte → Blit
  | [] => b
  | row :: rows =>
    if h : py < 32 then
      Blit.rows policy sx (py + 1) (Blit.columns policy row sx ⟨py, h⟩ b [0, 1, 2, 3, 4, 5, 6, 7]) rows
    else
      match policy with
      | .clip => b

/-! ### The keypad (10_state.md R31) -/

/-- `KEY[k]`: "is key K currently held". -/
def State.keyHeld (s : State) (k : KeyIdx) : Bool := s.key[k.val]

/-- The sixteen key numbers, rising. -/
def allKeys : List KeyIdx := [0, 1, 2, 3, 4, 5, 6, 7, 8, 9, 10, 11, 12, 13, 14, 15]

/-- "First currently-held key, if any": the least. -/
def State.firstKey (s : State) : Option KeyIdx := allKeys.find? s.keyHeld

/-! ### Timers (60_exceptions.md R250) -/

/-- One tick of a counter: toward zero, and zero stays zero. -/
def countDown (b : Byte) : Byte := if b = 0#8 then b else b - 1#8

end Sys2Proof.Machine
end

