-- ==== Sys2Proof/Machine/Operands.lean ====
section
/-! DEFINITION. The operand forms (30_encoding.md R93): register direct is `State.reg`; here are the
immediates, the implied registers and the operands a parameter selects. -/

namespace Sys2Proof.Machine

/-- `zext_16` of a 12-bit immediate. -/
def zextImm (nnn : Imm12) : Word := BitVec.ofNat 16 nnn.toNat

/-- `zext_16` of a byte. -/
def zextByte (b : Byte) : Word := BitVec.ofNat 16 b.toNat

/-- The operand of a shift: `Vx`, or `Vy` when `SHIFT_SOURCE = VY` (41_alu.md R150, R152). -/
def State.shiftOperand (s : State) (x y : RegIdx) : Byte :=
  match s.params.shiftSource with
  | .vx => s.reg x
  | .vy => s.reg y

/-- The register added by BNNN: `V0`, or `Vx` when `JUMP_OFFSET_REG = VX` (40_control_flow.md R128). -/
def State.jumpOffset (s : State) (x : RegIdx) : Byte :=
  match s.params.jumpOffsetReg with
  | .v0 => s.reg 0
  | .vx => s.reg x

/-- The base address of a data access: `EA = I + k` is an unbounded integer (42_index_memory.md R170,
20_memory.md R70). -/
def State.baseAddr (s : State) : Nat := s.i.toNat

/-- The registers `V[0]` to `V[x]`, in the order of the loop `for i in 0 .. x` (42_index_memory.md R175, R177). -/
def regsUpTo (x : RegIdx) : List RegIdx :=
  ([0, 1, 2, 3, 4, 5, 6, 7, 8, 9, 10, 11, 12, 13, 14, 15] : List RegIdx).take (x.val + 1)

/-- The address of the glyph of a byte's low nibble (42_index_memory.md R173). -/
def glyphAddr (base : FontBase) (b : Byte) : Word := BitVec.ofNat 16 (base.val + 5 * (b.toNat % 16))

/-- `DRAW_Y_START_MOD` as a number (43_display.md R196). -/
def drawYModulus : DrawYStartMod → Nat
  | .mod64 => 64
  | .mod32 => 32

/-- The key a byte names; a number above 15 is handled as `KEY_INDEX_POLICY` says, and `FAULT` raises
(44_keypad_timers.md R213). -/
def keyOperand (policy : KeyIndexPolicy) (b : Byte) : Except Condition KeyIdx :=
  if h : b.toNat < 16 then .ok ⟨b.toNat, h⟩
  else
    match policy with
    | .fault => .error (.key b)

/-- The decimal digits of a byte, hundreds first (42_index_memory.md R174). -/
def bcdDigits (b : Byte) : List Byte :=
  [BitVec.ofNat 8 (b.toNat / 100), BitVec.ofNat 8 (b.toNat / 10 % 10), BitVec.ofNat 8 (b.toNat % 10)]

end Sys2Proof.Machine
end

