-- ==== Sys2Proof/Machine/ControlFlow.lean ====
section
/-! DEFINITION. The control-flow instructions (40_control_flow.md). A meaning starts in the execute step, with
`PC` already advanced past the instruction. -/

namespace Sys2Proof.Machine

/-- The answer of a meaning. -/
abbrev Answer := Host.Outcome State Fault Refusal

/-- `RET` (R121). -/
def execRet (s : State) : Answer := .next s.popPc.state

/-- `JP nnn` (R122). -/
def execJp (nnn : Imm12) (s : State) : Answer := .next (s.setPc (zextImm nnn))

/-- `CALL nnn` (R123): the pushed value is the advanced `PC`. -/
def execCall (nnn : Imm12) (s : State) : Answer :=
  match s.push s.pc (zextImm nnn) with
  | .done s' => .next (s'.setPc (zextImm nnn))
  | .raised c s' => .next (s'.raiseHere c)

/-- The conditional `PC <- PC + 2` (R120). -/
def State.skipIf (s : State) (b : Bool) : State := if b then s.skip else s

/-- `SE Vx, nn` (R124). -/
def execSeImm (x : RegIdx) (nn : Byte) (s : State) : Answer := .next (s.skipIf (decide (s.reg x = nn)))

/-- `SNE Vx, nn` (R125). -/
def execSneImm (x : RegIdx) (nn : Byte) (s : State) : Answer := .next (s.skipIf (decide (s.reg x ≠ nn)))

/-- `SE Vx, Vy` (R126). -/
def execSeReg (x y : RegIdx) (s : State) : Answer := .next (s.skipIf (decide (s.reg x = s.reg y)))

/-- `SNE Vx, Vy` (R127). -/
def execSneReg (x y : RegIdx) (s : State) : Answer := .next (s.skipIf (decide (s.reg x ≠ s.reg y)))

/-- `JP V0, nnn` (R128). -/
def execJpOffset (nnn : Imm12) (x : RegIdx) (s : State) : Answer :=
  .next (s.setPc (zextImm nnn + zextByte (s.jumpOffset x)))

end Sys2Proof.Machine
end

