-- ==== Sys2Proof/Machine/Flags.lean ====
section
/-! DEFINITION. The results and the flag values of the instructions that write VF (10_state.md R37,
41_alu.md R143 to R152), and the order in which result and flag are written. -/

namespace Sys2Proof.Machine

/-- A flag value is the byte 0x00 or 0x01 (R37). -/
def flagByte (b : Bool) : Byte := if b then 0x01#8 else 0x00#8

/-- `sum mod 256` (R148). -/
def sumByte (a b : Byte) : Byte := BitVec.ofNat 8 (a.toNat + b.toNat)

/-- The carry out of bit 7: `sum > 255` (R148). -/
def carryOut (a b : Byte) : Bool := decide (a.toNat + b.toNat > 255)

/-- `(a + 256 - b) mod 256` (R149). -/
def diffByte (a b : Byte) : Byte := BitVec.ofNat 8 (a.toNat + 256 - b.toNat)

/-- No borrow in `a - b`: not `a < b` (R149). -/
def noBorrow (a b : Byte) : Bool := !decide (a.toNat < b.toNat)

/-- `s8 >> 1` (R150). -/
def shiftRight (b : Byte) : Byte := BitVec.ofNat 8 (b.toNat / 2)

/-- `(s8 << 1) mod 256` (R152). -/
def shiftLeft (b : Byte) : Byte := BitVec.ofNat 8 (b.toNat * 2)

/-- `s8[0]`, the bit a right shift puts out (R150). -/
def outLow (b : Byte) : Bool := b.getLsbD 0

/-- `s8[7]`, the bit a left shift puts out (R152). -/
def outHigh (b : Byte) : Bool := b.getLsbD 7

/-- Result first, flag last (R143): with `x = 15` VF ends as the flag. -/
def State.setRegAndFlag (s : State) (x : RegIdx) (result : Byte) (flag : Bool) : State :=
  (s.setReg x result).setReg vf (flagByte flag)

end Sys2Proof.Machine
end

