-- ==== Sys2Proof/Machine/Alu.lean ====
section
/-! DEFINITION. The register, arithmetic, logic, shift and random instructions (41_alu.md). -/

namespace Sys2Proof.Machine

/-- `LD Vx, nn` (R141). -/
def execLdImm (x : RegIdx) (nn : Byte) (s : State) : Answer := .next (s.setReg x nn)

/-- `ADD Vx, nn` (R142): no flag. -/
def execAddImm (x : RegIdx) (nn : Byte) (s : State) : Answer := .next (s.setReg x (sumByte (s.reg x) nn))

/-- `LD Vx, Vy` (R144). -/
def execLdReg (x y : RegIdx) (s : State) : Answer := .next (s.setReg x (s.reg y))

/-- `OR Vx, Vy` (R145). -/
def execOrReg (x y : RegIdx) (s : State) : Answer := .next (s.setReg x (s.reg x ||| s.reg y))

/-- `AND Vx, Vy` (R146). -/
def execAndReg (x y : RegIdx) (s : State) : Answer := .next (s.setReg x (s.reg x &&& s.reg y))

/-- `XOR Vx, Vy` (R147). -/
def execXorReg (x y : RegIdx) (s : State) : Answer := .next (s.setReg x (s.reg x ^^^ s.reg y))

/-- `ADD Vx, Vy` (R148). -/
def execAddReg (x y : RegIdx) (s : State) : Answer :=
  .next (s.setRegAndFlag x (sumByte (s.reg x) (s.reg y)) (carryOut (s.reg x) (s.reg y)))

/-- `SUB Vx, Vy` (R149). -/
def execSubReg (x y : RegIdx) (s : State) : Answer :=
  .next (s.setRegAndFlag x (diffByte (s.reg x) (s.reg y)) (noBorrow (s.reg x) (s.reg y)))

/-- `SHR Vx, Vy` (R150). -/
def execShr (x y : RegIdx) (s : State) : Answer :=
  .next (s.setRegAndFlag x (shiftRight (s.shiftOperand x y)) (outLow (s.shiftOperand x y)))

/-- `SUBN Vx, Vy` (R151). -/
def execSubnReg (x y : RegIdx) (s : State) : Answer :=
  .next (s.setRegAndFlag x (diffByte (s.reg y) (s.reg x)) (noBorrow (s.reg y) (s.reg x)))

/-- `SHL Vx, Vy` (R152). -/
def execShl (x y : RegIdx) (s : State) : Answer :=
  .next (s.setRegAndFlag x (shiftLeft (s.shiftOperand x y)) (outHigh (s.shiftOperand x y)))

/-- `RND Vx, nn` (R156): the cycle's input `rnd` (R155) and the mask. -/
def execRnd (x : RegIdx) (nn : Byte) (s : State) : Answer := .next (s.setReg x (s.rnd &&& nn))

end Sys2Proof.Machine
end

