-- ==== Sys2Proof/Machine/Display.lean ====
section
/-! DEFINITION. The display instructions (43_display.md). -/

namespace Sys2Proof.Machine

/-- `CLS` (R191). -/
def execCls (s : State) : Answer := .next (s.setFb FrameBuffer.clear)

/-- The blit of a sprite whose origin is `(ox, oy)`: only the start is reduced (R192, R194, R196). -/
def State.blit (s : State) (ox oy : Byte) (rows : List Byte) : Blit :=
  Blit.rows s.params.edgePolicy (ox.toNat % 64) (oy.toNat % drawYModulus s.params.drawYStartMod)
    ⟨s.fb, false⟩ rows

/-- `DRW Vx, Vy, n` (R192): the origin and all `n` rows are read before VF is reset and a pixel changes; then
VF is 0, the sprite is drawn, and VF ends as the collision flag. -/
def execDrw (x y : RegIdx) (n : Fin 16) (s : State) : Answer :=
  match s.readBlock s.baseAddr n.val with
  | .error c => .next (s.raiseHere c)
  | .ok rows =>
    .next (((s.setReg vf 0x00#8).setFb (s.blit (s.reg x) (s.reg y) rows).fb).setReg vf
      (flagByte (s.blit (s.reg x) (s.reg y) rows).coll))

end Sys2Proof.Machine
end

