-- ==== Sys2Proof/Machine/IndexMemory.lean ====
section
/-! DEFINITION. The index, font, BCD, store and load instructions (42_index_memory.md). None of them but
ANNN, FX1E and FX29 writes `I` (R176). -/

namespace Sys2Proof.Machine

/-- `LD I, nnn` (R171). -/
def execLdI (nnn : Imm12) (s : State) : Answer := .next (s.setI (zextImm nnn))

/-- `ADD I, Vx` (R172): modulo 65536, no flag. -/
def execAddIVx (x : RegIdx) (s : State) : Answer := .next (s.setI (s.i + zextByte (s.reg x)))

/-- `LD F, Vx` (R173). -/
def execLdFVx (x : RegIdx) (s : State) : Answer := .next (s.setI (glyphAddr s.params.fontBase (s.reg x)))

/-- `LD B, Vx` (R174). -/
def execLdBVx (x : RegIdx) (s : State) : Answer :=
  .next (s.storeBlock s.baseAddr (bcdDigits (s.reg x))).state

/-- `LD [I], Vx` (R175). -/
def execStoreRegs (x : RegIdx) (s : State) : Answer :=
  .next (s.storeBlock s.baseAddr ((regsUpTo x).map s.reg)).state

/-- `LD Vx, [I]` (R177). -/
def execLoadRegs (x : RegIdx) (s : State) : Answer :=
  .next (s.loadBlock s.baseAddr (regsUpTo x)).state

end Sys2Proof.Machine
end

