-- ==== Sys2Proof/Machine/KeypadTimers.lean ====
section
/-! DEFINITION. The keypad and timer instructions (44_keypad_timers.md). -/

namespace Sys2Proof.Machine

/-- `SKP Vx` (R211). -/
def execSkp (x : RegIdx) (s : State) : Answer :=
  match keyOperand s.params.keyIndexPolicy (s.reg x) with
  | .error c => .next (s.raiseHere c)
  | .ok k => .next (s.skipIf (s.keyHeld k))

/-- `SKNP Vx` (R212). -/
def execSknp (x : RegIdx) (s : State) : Answer :=
  match keyOperand s.params.keyIndexPolicy (s.reg x) with
  | .error c => .next (s.raiseHere c)
  | .ok k => .next (s.skipIf (!s.keyHeld k))

/-- `LD Vx, K` (R214): the lowest held key, or back to the same instruction. -/
def execLdVxK (x : RegIdx) (s : State) : Answer :=
  match s.firstKey with
  | some k => .next (s.setReg x (BitVec.ofNat 8 k.val))
  | none => .next s.stepBack

/-- `LD Vx, DT` (R215). -/
def execLdVxDt (x : RegIdx) (s : State) : Answer := .next (s.setReg x s.dt)

/-- `LD DT, Vx` (R216). -/
def execLdDtVx (x : RegIdx) (s : State) : Answer := .next (s.setDt (s.reg x))

/-- `LD ST, Vx` (R217). -/
def execLdStVx (x : RegIdx) (s : State) : Answer := .next (s.setSt (s.reg x))

end Sys2Proof.Machine
end

