-- ==== Sys2Proof/Machine/Transactions.lean ====
section
/-! DEFINITION. The transactions of the host (70_reset_and_hazards.md R280), the Cycle among them (R281). -/

namespace Sys2Proof.Machine

/-! ### Reset, Load, Tick, SetKey -/

/-- The Reset transaction (R270): every piece of state the spec gives at its value of 10_state.md R35. Of the
model's own fields the parameters, the host's schedule, the count of free bytes and the sticky mark stay. -/
def State.resetCore (s : State) : State :=
  { State.resetWith s.params with
    pending := s.pending, rnd := s.rnd, draws := s.draws, condSeen := s.condSeen, result := .silent }

/-- The most bytes a Load takes (20_memory.md R69). -/
def maxRom : Nat := Config.memSize - Config.programStart

/-- The Load transaction (20_memory.md R69): the whole span is checked before anything is written. -/
def State.load (s : State) (bytes : List Byte) : State :=
  if bytes.length > maxRom then { s with result := .romTooLarge }
  else { s.writeBytes Config.programStart bytes with result := .ok }

/-- The Tick transaction (60_exceptions.md R250). -/
def State.tick (s : State) : State :=
  { s with dt := countDown s.dt, st := countDown s.st, result := .silent }

/-- The SetKey transaction: `KEY[k] <- p`. -/
def State.setKey (s : State) (k : KeyIdx) (p : Bool) : State :=
  { s with key := s.key.set k.val p, result := .silent }

/-- The value of one piece of the state, which an observation answers (R280, 10_state.md R36). -/
def State.observed (s : State) : Observable → Observed
  | .v r => .byte (s.reg r)
  | .i => .word s.i
  | .pc => .word s.pc
  | .stack k => .word s.stack[k.val]
  | .sp => .count s.sp
  | .dt => .byte s.dt
  | .st => .byte s.st
  | .fb => .picture s.fb
  | .key k => .bit (s.keyHeld k)
  | .mem a => .byte (s.readByte a.val)
  | .status => .runStatus s.status
  | .errCause => .code s.errCause
  | .errVal => .word s.errVal
  | .errAddr => .word s.errAddr

/-- An observation (R280): its result is the value read, and it has no effect. -/
def State.observe (s : State) (what : Observable) : State := { s with result := .value (s.observed what) }

/-! ### The Cycle -/

/-- The fetch's check of `PC` (20_memory.md R64). -/
def fetchable (pc : Word) : Bool :=
  decide (pc.toNat % 2 = 0) && decide (Config.programStart ≤ pc.toNat) && decide (pc.toNat ≤ Config.lastFetch)

/-- A Cycle begins: its input `rnd` is in place, and its answer is `Ok` unless a condition is raised. -/
def State.beginCycle (s : State) (rnd : Byte) : State := { s with rnd := rnd, result := .ok }

/-- The advance: `PC <- a + 2`, before dispatch. -/
def State.advance (s : State) : State := s.setPc (s.pc + 2#16)

/-- The word at `PC`. -/
def State.fetchWord (s : State) : Word := s.readWord s.pc.toNat

/-- Steps 3 to 5 of R281 on a fetched word, `PC` already advanced. -/
def dispatchWord (op : Word) (s : State) : Answer :=
  match decodeWord op with
  | some i => exec i s
  | none => .next (s.raiseHere (.fatal op))

/-- One Cycle(rnd) of a running core. -/
def runningCycle (rnd : Byte) (s : State) : Answer :=
  if fetchable s.pc then dispatchWord s.fetchWord (s.beginCycle rnd).advance
  else .next ((s.beginCycle rnd).raise (.pc s.pc) s.pc)

/-- The Cycle(rnd) transaction (R281); in Halted it is refused and changes nothing (60_exceptions.md R240). -/
def cycle (rnd : Byte) (s : State) : Answer :=
  match s.status with
  | .halted => .next { s with result := .refusedHalted }
  | .running => runningCycle rnd s

/-- One transaction of the host. Tick, SetKey, Load, Reset and observing are accepted whatever `STATUS` is
(60_exceptions.md R252, R270). -/
def transact (t : Transaction) (s : State) : Answer :=
  match t with
  | .reset => .next s.resetCore
  | .load bytes => .next (s.load bytes)
  | .cycle rnd => cycle rnd s
  | .tick => .next s.tick
  | .setKey k p => .next (s.setKey k p)
  | .observe what => .next (s.observe what)

/-- The transaction that comes next: the head of the schedule, or, where the host has scheduled nothing, a
Cycle whose `rnd` is the next free byte. -/
def nextTransaction (s : State) : Transaction :=
  match s.pending with
  | t :: _ => t
  | [] => .cycle (Config.rnd s.draws)

/-- The schedule without the transaction that comes next. -/
def State.takeTransaction (s : State) : State :=
  match s.pending with
  | _ :: rest => { s with pending := rest }
  | [] => { s with draws := s.draws + 1 }

/-- The state in which the very next transaction is a Cycle that fetches the word `op`: the two bytes stand
at `PC`, high byte first; where `PC` is not one a fetch accepts it is the program start; the core runs; and
nothing else is scheduled before. -/
def State.placeWord (s : State) (op : Word) : State :=
  let s := { s with pending := [], status := .running,
                    pc := if fetchable s.pc then s.pc else BitVec.ofNat 16 Config.programStart }
  s.writeBytes s.pc.toNat [highByte op, lowByte op]

end Sys2Proof.Machine
end

