-- ==== Sys2Proof/Machine/Step.lean ====
section
/-! DEFINITION. One step of the machine: the next transaction of the host (70_reset_and_hazards.md R285). -/

namespace Sys2Proof.Machine

/-- One step: the transaction that comes next, on the state whose schedule no longer holds it. -/
def step (s : State) : Host.Outcome State Fault Refusal :=
  transact (nextTransaction s) s.takeTransaction

/-- `s` with the instruction whose table bits are `w` where the next step fetches it. -/
def State.withFetchWord (s : State) (nbits w : Nat) : State := s.placeWord (tableWord nbits w)

end Sys2Proof.Machine
end

