-- ==== Sys2Proof/Safety.lean ====
section
/-! DEFINITION. What counts as a safe run, and the terms in which claims about a step are said: when a cycle
runs an instruction, what an instruction leaves alone, and the invariants of the machine. -/

namespace Sys2Proof.Machine

/-! ### Runs -/

/-- No condition has been raised: the premise of 60_exceptions.md R242. -/
abbrev State.Clean (s : State) : Prop := s.condSeen = false

/-- The host's schedule is one of a run that has begun: no Load and no Reset (70_reset_and_hazards.md R287). -/
abbrev State.OneRun (s : State) : Prop := ∀ x ∈ s.pending, x ≠ .reset ∧ ∀ bytes, x ≠ .load bytes

/-- A fetch at `PC` is legal (20_memory.md R64), said in numbers. -/
abbrev State.PcLegal (s : State) : Prop := s.pc.toNat % 2 = 0 ∧ 0x200 ≤ s.pc.toNat ∧ s.pc.toNat ≤ 4094

/-- The next step is a Cycle(rnd) of a running core: the host has scheduled it, or it has scheduled nothing and
the byte is the next free one. -/
abbrev State.CycleNext (s : State) (rnd : Byte) : Prop :=
  s.status = .running ∧ (s.pending.head? = some (.cycle rnd) ∨ s.pending = [] ∧ rnd = Config.rnd s.draws)

/-- The two bytes at `PC`. -/
def State.fetchBytes (s : State) : List Byte := [s.readByte s.pc.toNat, s.readByte (s.pc.toNat + 1)]

/-- The next step is a Cycle(rnd) that fetches and decodes the instruction `i`. -/
abbrev State.Executes (s : State) (rnd : Byte) (i : Instr) : Prop :=
  s.CycleNext rnd ∧ s.PcLegal ∧ decode s.fetchBytes = .ok (i, [])

/-- The state in which the execute step of such a Cycle starts: the transaction is off the schedule, `rnd` is
in place, the answer is `Ok` so far, and `PC` is past the instruction. -/
def State.executing (s : State) (rnd : Byte) : State :=
  { s with
    pending := s.pending.tail
    draws   := if s.pending = [] then s.draws + 1 else s.draws
    rnd     := rnd
    result  := .ok
    pc      := s.pc + 2#16 }

/-- A run is finished at `a` (70_reset_and_hazards.md R286): `PC = a` and the word at `a` is `JP a`. -/
abbrev State.FinishedAt (s : State) (a : Imm12) : Prop :=
  s.pc = zextImm a ∧ s.readWord a.toNat = encode (.jp a)

/-- Every piece of state the spec gives the machine, memory apart, is at its value of 10_state.md R35. -/
def State.AtResetButMemory (s : State) : Prop :=
  (∀ r, s.reg r = 0x00#8) ∧ s.i = 0x0000#16 ∧ s.pc = 0x0200#16 ∧
    s.sp = 0 ∧ (∀ k : Fin 16, s.stack[k.val] = 0x0000#16) ∧ s.dt = 0x00#8 ∧ s.st = 0x00#8 ∧
    (∀ px py, s.pixel px py = false) ∧ (∀ k, s.keyHeld k = false) ∧ s.status = .running ∧
    s.errCause = 0#3 ∧ s.errVal = 0x0000#16 ∧ s.errAddr = 0x0000#16

/-- Memory holds the 80 bytes `font` at the font base, `rom` from 0x200 on, and 0x00 everywhere else. -/
def State.MemoryHolds (s : State) (font rom : List Byte) : Prop :=
  (∀ k, k < 80 → s.readByte (s.params.fontBase.val + k) = font.getD k 0x00#8) ∧
    (∀ k, k < rom.length → s.readByte (0x200 + k) = rom.getD k 0x00#8) ∧
    ∀ a, a < s.params.fontBase.val ∨ s.params.fontBase.val + 80 ≤ a → a < 0x200 ∨ 0x200 + rom.length ≤ a →
      s.readByte a = 0x00#8

/-- Every piece of state the spec gives the machine is at its value of 10_state.md R35; memory is all zero but for
the 80 bytes `font` at the font base. -/
def State.AtResetValues (s : State) (font : List Byte) : Prop := s.AtResetButMemory ∧ s.MemoryHolds font []

/-- The launch premises (70_reset_and_hazards.md R288): every piece of state at its value of R35, but that memory
holds the ROM, of at most 3584 bytes, from 0x200 on. Of the parameters and the model's own fields it says nothing. -/
def State.Launched (s : State) (font rom : List Byte) : Prop :=
  rom.length ≤ 3584 ∧ s.AtResetButMemory ∧ s.MemoryHolds font rom

/-! ### Frames. `s` is before, `t` after. -/

/-- Every byte of memory reads as before. -/
abbrev SameMemory (s t : State) : Prop := ∀ a, t.readByte a = s.readByte a

/-- Every byte of memory reads as before but those of the `n` addresses from `a`. -/
abbrev SameMemoryOutside (a n : Nat) (s t : State) : Prop :=
  ∀ a', a' < a ∨ a + n ≤ a' → t.readByte a' = s.readByte a'

/-- Every general register is as before but those listed. -/
abbrev SameRegsBut (rs : List RegIdx) (s t : State) : Prop := ∀ r, r ∉ rs → t.reg r = s.reg r

/-- Only general registers, and of them only those listed, may have changed. -/
abbrev OnlyRegs (rs : List RegIdx) (s t : State) : Prop :=
  SameRegsBut rs s t ∧ SameMemory s t ∧ t = { s with v := t.v }

/-- Only `PC` may have changed. -/
abbrev OnlyPc (s t : State) : Prop := SameMemory s t ∧ t = { s with pc := t.pc }

/-- Only `I` may have changed. -/
abbrev OnlyI (s t : State) : Prop := SameMemory s t ∧ t = { s with i := t.i }

/-- Only the `n` bytes of memory from `a` may have changed. -/
abbrev OnlyBytes (a n : Nat) (s t : State) : Prop := SameMemoryOutside a n s t ∧ t = { s with mem := t.mem }

/-- The report of a condition (60_exceptions.md R232): the latches and the answer hold the triple, and the
sticky mark of R242 is set. -/
abbrev Reports (cause : BitVec 3) (val addr : Word) (t : State) : Prop :=
  t.errCause = cause ∧ t.errVal = val ∧ t.errAddr = addr ∧ t.result = .error cause val addr ∧ t.condSeen = true

/-- `t` with the report taken from `s`: what is left to compare where a condition was taken. -/
def State.sansReport (t s : State) : State :=
  { t with errCause := s.errCause, errVal := s.errVal, errAddr := s.errAddr, result := s.result, condSeen := s.condSeen }

/-- The state with everything a program cannot observe made the same: `ST`, the latches and the answer
(10_state.md R36; 60_exceptions.md R238). -/
def State.seenByProgram (s : State) : State :=
  { s with st := 0x00#8, errCause := 0#3, errVal := 0#16, errAddr := 0#16, result := .silent, condSeen := false }

/-- The general registers an instruction may write (10_state.md R22, R37). -/
def writtenRegs : Instr → List RegIdx
  | .ldImm x _ | .addImm x _ | .ldReg x _ | .orReg x _ | .andReg x _ | .xorReg x _ | .rnd x _
  | .ldVxDt x | .ldVxK x => [x]
  | .addReg x _ | .subReg x _ | .shr x _ | .subnReg x _ | .shl x _ => [x, vf]
  | .drw _ _ _ => [vf]
  | .loadRegs x => regsUpTo x
  | .cls | .ret | .jp _ | .call _ | .seImm _ _ | .sneImm _ _ | .seReg _ _ | .sneReg _ _ | .ldI _
  | .jpOffset _ _ | .skp _ | .sknp _ | .ldDtVx _ | .ldStVx _ | .addIVx _ | .ldFVx _ | .ldBVx _
  | .storeRegs _ => []

/-! ### The sprite in closed form (43_display.md R190, R192, R194) -/

/-- Whether a sprite with these rows and this start sets its bit over the pixel `(px, py)`: the bit of row
`py - sy` and column `px - sx`, most significant bit leftmost. -/
def spriteBit (rows : List Byte) (sx sy : Nat) (px : Fin 64) (py : Fin 32) : Bool :=
  decide (sx ≤ px.val) && decide (px.val < sx + 8) && decide (sy ≤ py.val) &&
    (rows.getD (py.val - sy) 0x00#8).getLsbD (7 - (px.val - sx))

/-! ### Invariants -/

/-- Memory is in its canonical form. -/
abbrev State.MemCanonical (s : State) : Prop := Memory.wf s.params.fontBase s.mem

/-- The latches and the status agree (60_exceptions.md R231, R233, R234, R242): code 7 is never produced; Halted
only with the report of a Fatal; with no report the latches are 0; a report leaves the sticky mark. -/
abbrev State.ReportsAgree (s : State) : Prop :=
  s.errCause ≠ 7#3 ∧ (s.status = .halted → s.errCause = 1#3) ∧
    (s.errCause = 0#3 → s.errVal = 0#16 ∧ s.errAddr = 0#16) ∧ (s.errCause ≠ 0#3 → s.condSeen = true)

/-- Every valid call-stack cell holds what a CALL pushed (40_control_flow.md R121): an even address in
`[0x202, 4096]`. -/
abbrev State.ReturnsLegal (s : State) : Prop :=
  ∀ k : Fin 16, k.val < s.sp.val →
    s.stack[k.val].toNat % 2 = 0 ∧ 0x202 ≤ s.stack[k.val].toNat ∧ s.stack[k.val].toNat ≤ 4096

/-- The invariant of the machine. -/
abbrev State.Inv (s : State) : Prop := s.MemCanonical ∧ s.ReportsAgree ∧ s.ReturnsLegal

end Sys2Proof.Machine
end

