-- ==== Sys2Proof/Certificates/Slice0/Obligations.lean ====
section
/-! DEFINITION. The statements. In a statement about `exec`, `s` is the state in which the execute step starts:
`s.pc` is already `a + 2`, so the fetch address `a` is `s.pc - 2`. "D<n>" is a decision of 92_eei_decisions.md: the
spec's own choice, which the model follows. The numeric codes and the latches of a report are D26 (log entry 20), the
words of 30 of the 34 rows are D4 (log entry 8). -/

open Sys2Proof Sys2Proof.Machine

/-! ### Reset, Load, Tick, SetKey (70_reset_and_hazards.md, 20_memory.md R69, 60_exceptions.md R250) -/

/-- The 80 font bytes, written out from 10_state.md R33, digit by digit. -/
def specFont : List Byte :=
  [0xF0, 0x90, 0x90, 0x90, 0xF0] ++ [0x20, 0x60, 0x20, 0x20, 0x70] ++ [0xF0, 0x10, 0xF0, 0x80, 0xF0] ++
  [0xF0, 0x10, 0xF0, 0x10, 0xF0] ++ [0x90, 0x90, 0xF0, 0x10, 0x10] ++ [0xF0, 0x80, 0xF0, 0x10, 0xF0] ++
  [0xF0, 0x80, 0xF0, 0x90, 0xF0] ++ [0xF0, 0x10, 0x20, 0x40, 0x40] ++ [0xF0, 0x90, 0xF0, 0x90, 0xF0] ++
  [0xF0, 0x90, 0xF0, 0x10, 0xF0] ++ [0xF0, 0x90, 0xF0, 0x90, 0x90] ++ [0xE0, 0x90, 0xE0, 0x90, 0xE0] ++
  [0xF0, 0x80, 0x80, 0x80, 0xF0] ++ [0xE0, 0x90, 0x90, 0x90, 0xE0] ++ [0xF0, 0x80, 0xF0, 0x80, 0xF0] ++
  [0xF0, 0x80, 0xF0, 0x80, 0x80]

/-- The state after reset is R35's, whatever the font base is. The font bytes are R33's table (D3, log entry 7); `PC`
and the rest of memory are D7 and D8 (log entries 10, 11). -/
def Obligations.ResetStateHoldsSpecValues : Prop :=
  State.reset.AtResetValues specFont

/-- R35, R270. The Reset transaction, in any state, Halted included, puts every piece of state at its reset
value, whatever the parameters; of the model's own fields the parameters, the rest of the schedule and the
sticky mark stay (log entries 1, 4, 6). Nothing else leaves Halted. The values of D3, D7, D8 are as in the statement
before. -/
def Obligations.ResetTransactionRestoresSpecValues : Prop :=
  (∀ (s : State) (rest : List Transaction), s.pending = .reset :: rest →
    ∃ t, step s = .next t ∧ t.AtResetValues specFont ∧ t.params = s.params ∧ t.pending = rest ∧
      t.condSeen = s.condSeen ∧ t.result = .silent) ∧
  ∀ s t : State, step s = .next t → s.status = .halted → t.status = .running → s.pending.head? = some .reset

/-- R69. Load writes the ROM at 0x200 and nothing else, or, for a ROM of more than 3584 bytes, writes nothing and
answers `RomTooLarge` (D27, log entry 21). The answer is the model's field (log entry 5). -/
def Obligations.LoadWritesRomOrNothing : Prop :=
  ∀ (s : State) (rom : List Byte) (rest : List Transaction), s.pending = .load rom :: rest → s.MemCanonical →
    (rom.length ≤ 3584 →
      ∃ t, step s = .next t ∧ (∀ k, k < rom.length → t.readByte (0x200 + k) = rom.getD k 0x00#8) ∧
        SameMemoryOutside 0x200 rom.length s t ∧
        t = { s with mem := t.mem, pending := rest, result := .ok }) ∧
    (3584 < rom.length → step s = .next { s with pending := rest, result := .romTooLarge })

/-- R250: Tick decrements both timers toward zero and touches nothing else. That it does so whatever the status is,
Halted included, is R252, the spec's own decision D23 (log entry 19); the schedule and the answer are the model's
fields (DESIGN CHOICE, log entries 4, 5). -/
def Obligations.TickCountsBothTimersDown : Prop :=
  ∀ (s : State) (rest : List Transaction), s.pending = .tick :: rest →
    ∃ t, step s = .next t ∧ t.dt.toNat = s.dt.toNat - 1 ∧ t.st.toNat = s.st.toNat - 1 ∧ SameMemory s t ∧
      t = { s with dt := t.dt, st := t.st, pending := rest, result := .silent }

/-- R31, R280. SetKey writes one key state and nothing else; an observation changes nothing but the answer (D24, D32;
log entries 4, 5, 23). What it answers is `ObservationAnswersState`. -/
def Obligations.SetKeyWritesOneKey : Prop :=
  (∀ (s : State) (k : KeyIdx) (p : Bool) (rest : List Transaction), s.pending = .setKey k p :: rest →
    ∃ t, step s = .next t ∧ t.keyHeld k = p ∧ (∀ j, j ≠ k → t.keyHeld j = s.keyHeld j) ∧ SameMemory s t ∧
      t = { s with key := t.key, pending := rest, result := .silent }) ∧
  ∀ (s : State) (what : Observable) (rest : List Transaction), s.pending = .observe what :: rest →
    ∃ t, step s = .next t ∧ SameMemory s t ∧ t = { s with pending := rest, result := t.result }

/-- R288, R271 (both the spec's inferences). A Load of a ROM that fits takes the reset values to the launch state of
that ROM, and so do a Reset and a Load in any state: byte `0x200 + k` is byte `k` of the ROM, the 80 font bytes stand
at the font base, every other byte is 0, and every other piece of state has its value of R35. The parameters, the
schedule, the answer, the sticky mark and the memory form are the model's (log entries 1, 4, 5, 6, 10); the values of
D3, D7, D8 are as above. -/
def Obligations.LoadAfterResetLaunches : Prop :=
  ∀ (rom : List Byte) (rest : List Transaction), rom.length ≤ 3584 →
    (∀ p : Params, ∃ t, step { State.resetWith p with pending := .load rom :: rest } = .next t ∧
      t.Launched specFont rom ∧ t.params = p ∧ t.pending = rest ∧ t.result = .ok ∧ t.Clean ∧ t.MemCanonical) ∧
    ∀ s : State, s.pending = .reset :: .load rom :: rest →
      ∃ u t, step s = .next u ∧ step u = .next t ∧
        t.Launched specFont rom ∧ t.params = s.params ∧ t.pending = rest ∧ t.result = .ok ∧
        t.condSeen = s.condSeen ∧ t.MemCanonical

/-! ### The Cycle (70_reset_and_hazards.md R281, 60_exceptions.md) -/

/-- R281. A step whose Cycle fetches and decodes `i` is the meaning of `i` in the state past the instruction. The
schedule, the count of free bytes and the answer are the model's fields (log entries 3, 4, 5). -/
def Obligations.StepRunsDecodedInstruction : Prop :=
  ∀ (s : State) (rnd : Byte) (i : Instr), s.Executes rnd i → step s = exec i (s.executing rnd)

/-- R64. A fetch at a `PC` that is odd, below 0x200 or above 4094 raises `OutOfBounds.Pc`, and nothing but the report
and the Cycle's own inputs changes (D9, log entry 11); at any other `PC` the word fetched is the two bytes at `PC`, the
high byte at the lower address. -/
def Obligations.FetchChecksProgramCounter : Prop :=
  ∀ (s : State) (rnd : Byte), s.CycleNext rnd →
    (¬ s.PcLegal →
      ∃ t, step s = .next t ∧ Reports 3#3 s.pc s.pc t ∧
        t.sansReport s = { s.executing rnd with pc := s.pc, result := s.result }) ∧
    (s.PcLegal → ∀ i,
      decodeWord (BitVec.ofNat 16
        ((s.readByte s.pc.toNat).toNat * 256 + (s.readByte (s.pc.toNat + 1)).toNat)) = some i →
      step s = exec i (s.executing rnd))

/-- R233. An illegal word raises `Fatal` with the word and its address: `PC` is past it, the core is Halted, and
nothing else but the report changes; the next Cycle is then refused (D25, log entry 19). -/
def Obligations.IllegalWordHalts : Prop :=
  ∀ (s : State) (rnd : Byte) (op : Word), s.CycleNext rnd → s.PcLegal →
    decode s.fetchBytes = .error (.unmatchedWord op) →
    ∃ t, step s = .next t ∧ Reports 1#3 op s.pc t ∧ t.status = .halted ∧ t.pc = s.pc + 2#16 ∧
      t.sansReport s = { s.executing rnd with status := .halted, result := s.result } ∧
      ∀ rnd' : Byte, step { t with pending := [.cycle rnd'] } =
        .next { t with pending := [], result := .refusedHalted }

/-- R240. A Cycle while Halted changes no state and answers `Refused(Halted)`; every other transaction is still
accepted (D23, D25; log entry 19). -/
def Obligations.HaltedRefusesOnlyCycles : Prop :=
  (∀ s : State, s.status = .halted → ((∃ rnd, s.pending.head? = some (.cycle rnd)) ∨ s.pending = []) →
    step s = .next { s with
      pending := s.pending.tail
      draws := if s.pending = [] then s.draws + 1 else s.draws
      result := .refusedHalted }) ∧
  ∀ (s : State) (x : Transaction) (rest : List Transaction), s.status = .halted → s.pending = x :: rest →
    (∀ rnd, x ≠ .cycle rnd) → ∃ t, step s = .next t ∧ t.result ≠ .refusedHalted

/-- R285, the spec's inference. The machine is total: every state has exactly one next state; no step ends in a fault
or a refusal (a condition is taken, a refused Cycle answers the host: log entries 5, 13). -/
def Obligations.EveryStateHasNextState : Prop :=
  ∀ s : State, ∃ t, step s = .next t

/-- R232, R236, R32. A Cycle of a running core either answers `Ok` and leaves the latches and the mark alone, or
reports exactly one condition, of code 1 to 6, whose address is the `PC` the cycle started from (R237 is the spec's
inference). -/
def Obligations.CycleReportsAtMostOneCondition : Prop :=
  ∀ (s t : State) (rnd : Byte), s.CycleNext rnd → step s = .next t →
    (t.result = .ok ∧ t.errCause = s.errCause ∧ t.errVal = s.errVal ∧ t.errAddr = s.errAddr ∧
      t.condSeen = s.condSeen ∧ t.status = .running) ∨
    ∃ cause val, 1 ≤ cause.toNat ∧ cause.toNat ≤ 6 ∧ Reports cause val s.pc t ∧
      (t.status = .halted ↔ cause = 1#3)

/-- R286. At a jump to itself a Cycle leaves every piece of state unchanged (but the Cycle's own inputs and its
answer, which are the model's fields; D33). -/
def Obligations.SelfJumpChangesNothing : Prop :=
  ∀ (s : State) (rnd : Byte) (a : Imm12), s.CycleNext rnd → s.PcLegal → s.FinishedAt a →
    step s = .next { s.executing rnd with pc := s.pc }

/-! ### Control flow (40_control_flow.md) -/

/-- R122. The jump replaces the advanced `PC` and touches nothing else. -/
def Obligations.JumpSetsProgramCounter : Prop :=
  ∀ nnn : Imm12, decodeWord (BitVec.ofNat 16 (0x1000 + nnn.toNat)) = some (.jp nnn) ∧
    ∀ s, ∃ t, exec (.jp nnn) s = .next t ∧ t.pc.toNat = nnn.toNat ∧ OnlyPc s t

/-- R123. The depth and what an overflow does are D10 (log entry 12). -/
def Obligations.CallPushesReturnAddress : Prop :=
  ∀ nnn : Imm12, decodeWord (BitVec.ofNat 16 (0x2000 + nnn.toNat)) = some (.call nnn) ∧
    ∀ s : State,
      (s.sp.val < 16 →
        ∃ t, exec (.call nnn) s = .next t ∧ t.pc.toNat = nnn.toNat ∧ t.sp.val = s.sp.val + 1 ∧
          (∀ k : Fin 16, t.stack[k.val] = if k.val = s.sp.val then s.pc else s.stack[k.val]) ∧ SameMemory s t ∧
          t = { s with pc := t.pc, sp := t.sp, stack := t.stack }) ∧
      (s.sp.val = 16 →
        ∃ t, exec (.call nnn) s = .next t ∧ Reports 5#3 (BitVec.ofNat 16 nnn.toNat) (s.pc - 2#16) t ∧
          SameMemory s t ∧ t.sansReport s = s)

/-- R121. What an underflow does is D11 (log entry 12). -/
def Obligations.ReturnPopsProgramCounter : Prop :=
  decodeWord 0x00EE#16 = some .ret ∧
    ∀ s : State,
      (∀ k : Fin 16, s.sp.val = k.val + 1 →
        ∃ t, exec .ret s = .next t ∧ t.pc = s.stack[k.val] ∧ t.sp.val = k.val ∧ SameMemory s t ∧
          t = { s with pc := t.pc, sp := t.sp }) ∧
      (s.sp.val = 0 →
        ∃ t, exec .ret s = .next t ∧ Reports 6#3 0#16 (s.pc - 2#16) t ∧ SameMemory s t ∧ t.sansReport s = s)

/-- R120, R121, R123. A call that is not one too many, and the return that follows it in any state with the same stack,
come back to the instruction after the call, with the stack as deep as before. -/
def Obligations.ReturnUndoesCall : Prop :=
  ∀ (nnn : Imm12) (s t u : State), s.sp.val < 16 → exec (.call nnn) s = .next t →
    u.stack = t.stack → u.sp = t.sp →
    ∃ w, exec .ret u = .next w ∧ w.pc = s.pc ∧ w.sp = s.sp ∧
      ∀ k : Fin 16, k.val < s.sp.val → w.stack[k.val] = s.stack[k.val]

/-- R124 to R127. A skip adds 2 to the advanced `PC` exactly when its condition holds, and touches nothing else. -/
def Obligations.SkipsAddTwoOnCondition : Prop :=
  ∀ (x y : RegIdx) (nn : Byte),
    decodeWord (BitVec.ofNat 16 (0x3000 + x.val * 256 + nn.toNat)) = some (.seImm x nn) ∧
    decodeWord (BitVec.ofNat 16 (0x4000 + x.val * 256 + nn.toNat)) = some (.sneImm x nn) ∧
    decodeWord (BitVec.ofNat 16 (0x5000 + x.val * 256 + y.val * 16)) = some (.seReg x y) ∧
    decodeWord (BitVec.ofNat 16 (0x9000 + x.val * 256 + y.val * 16)) = some (.sneReg x y) ∧
    ∀ s : State, ∀ p : Instr × Bool,
      p ∈ [(.seImm x nn, decide ((s.reg x).toNat = nn.toNat)), (.sneImm x nn, !decide ((s.reg x).toNat = nn.toNat)),
        (.seReg x y, decide ((s.reg x).toNat = (s.reg y).toNat)),
        (.sneReg x y, !decide ((s.reg x).toNat = (s.reg y).toNat))] →
      ∃ t, exec p.1 s = .next t ∧ t.pc = (if p.2 then s.pc + 2#16 else s.pc) ∧ OnlyPc s t

/-- R128, in both modes; the sum is not cut to 12 bits (D16, log entry 15). -/
def Obligations.JumpWithOffsetAddsRegister : Prop :=
  ∀ nnn : Imm12, decodeWord (BitVec.ofNat 16 (0xB000 + nnn.toNat)) = some (.jpOffset nnn (topNibble nnn)) ∧
    ∀ (x : RegIdx) (s : State), ∃ t, exec (.jpOffset nnn x) s = .next t ∧ OnlyPc s t ∧
      (s.params.jumpOffsetReg = .v0 → t.pc.toNat = nnn.toNat + (s.reg 0).toNat) ∧
      (s.params.jumpOffsetReg = .vx → t.pc.toNat = nnn.toNat + (s.reg x).toNat)

/-- R25. Of the 34 instructions only jumps, calls, returns, taken skips and a waiting FX0A leave `PC` other than
`a + 2`; and one that raises leaves `PC = a + 2` (R25 is the spec's inference from the instruction rules). -/
def Obligations.OnlyTransfersMoveProgramCounter : Prop :=
  ∀ (i : Instr) (s t : State), exec i s = .next t → t.pc ≠ s.pc →
    t.errCause = s.errCause ∧ t.condSeen = s.condSeen ∧ t.result = s.result ∧
    ((∃ nnn, i = .jp nnn ∨ i = .call nnn) ∨ (∃ nnn x, i = .jpOffset nnn x) ∨ i = .ret ∨
      ((∃ x nn, i = .seImm x nn ∨ i = .sneImm x nn) ∨ (∃ x y, i = .seReg x y ∨ i = .sneReg x y) ∨
        (∃ x, i = .skp x ∨ i = .sknp x)) ∧ t.pc = s.pc + 2#16 ∨
      (∃ x, i = .ldVxK x) ∧ t.pc = s.pc - 2#16)

/-! ### Registers, arithmetic, logic (41_alu.md) -/

/-- R141, R142. Load and add an immediate byte; no flag. -/
def Obligations.ImmediatesLoadAndAdd : Prop :=
  ∀ (x : RegIdx) (nn : Byte),
    decodeWord (BitVec.ofNat 16 (0x6000 + x.val * 256 + nn.toNat)) = some (.ldImm x nn) ∧
    decodeWord (BitVec.ofNat 16 (0x7000 + x.val * 256 + nn.toNat)) = some (.addImm x nn) ∧
    ∀ s : State,
      (∃ t, exec (.ldImm x nn) s = .next t ∧ t.reg x = nn ∧ OnlyRegs [x] s t) ∧
      (∃ t, exec (.addImm x nn) s = .next t ∧ (t.reg x).toNat = ((s.reg x).toNat + nn.toNat) % 256 ∧ OnlyRegs [x] s t)

/-- R144 to R147: copy and the bitwise operations, no flag. -/
def Obligations.MovesAndLogicWriteNoFlag : Prop :=
  ∀ x y : RegIdx,
    decodeWord (BitVec.ofNat 16 (0x8000 + x.val * 256 + y.val * 16)) = some (.ldReg x y) ∧
    decodeWord (BitVec.ofNat 16 (0x8001 + x.val * 256 + y.val * 16)) = some (.orReg x y) ∧
    decodeWord (BitVec.ofNat 16 (0x8002 + x.val * 256 + y.val * 16)) = some (.andReg x y) ∧
    decodeWord (BitVec.ofNat 16 (0x8003 + x.val * 256 + y.val * 16)) = some (.xorReg x y) ∧
    ∀ s : State,
      (∃ t, exec (.ldReg x y) s = .next t ∧ t.reg x = s.reg y ∧ OnlyRegs [x] s t) ∧
      (∃ t, exec (.orReg x y) s = .next t ∧ OnlyRegs [x] s t ∧
        ∀ k, (t.reg x).getLsbD k = ((s.reg x).getLsbD k || (s.reg y).getLsbD k)) ∧
      (∃ t, exec (.andReg x y) s = .next t ∧ OnlyRegs [x] s t ∧
        ∀ k, (t.reg x).getLsbD k = ((s.reg x).getLsbD k && (s.reg y).getLsbD k)) ∧
      (∃ t, exec (.xorReg x y) s = .next t ∧ OnlyRegs [x] s t ∧
        ∀ k, (t.reg x).getLsbD k = ((s.reg x).getLsbD k != (s.reg y).getLsbD k))

/-- R148, with R143: for `x = 15` VF ends as the carry (D14, log entry 14). -/
def Obligations.AddWritesSumThenCarry : Prop :=
  ∀ x y : RegIdx, decodeWord (BitVec.ofNat 16 (0x8004 + x.val * 256 + y.val * 16)) = some (.addReg x y) ∧
    ∀ s : State, ∃ t, exec (.addReg x y) s = .next t ∧ OnlyRegs [x, 15] s t ∧
      (x ≠ 15 → (t.reg x).toNat = ((s.reg x).toNat + (s.reg y).toNat) % 256) ∧
      t.reg 15 = if (s.reg x).toNat + (s.reg y).toNat > 255 then 0x01#8 else 0x00#8

/-- R149, R151, with R143: for `x = 15` VF ends as the no-borrow flag (D14, log entry 14). -/
def Obligations.SubtractsWriteDifferenceThenNoBorrow : Prop :=
  ∀ x y : RegIdx,
    decodeWord (BitVec.ofNat 16 (0x8005 + x.val * 256 + y.val * 16)) = some (.subReg x y) ∧
    decodeWord (BitVec.ofNat 16 (0x8007 + x.val * 256 + y.val * 16)) = some (.subnReg x y) ∧
    ∀ s : State,
      (∃ t, exec (.subReg x y) s = .next t ∧ OnlyRegs [x, 15] s t ∧
        (x ≠ 15 → (t.reg x).toNat = ((s.reg x).toNat + 256 - (s.reg y).toNat) % 256) ∧
        t.reg 15 = if (s.reg x).toNat < (s.reg y).toNat then 0x00#8 else 0x01#8) ∧
      (∃ t, exec (.subnReg x y) s = .next t ∧ OnlyRegs [x, 15] s t ∧
        (x ≠ 15 → (t.reg x).toNat = ((s.reg y).toNat + 256 - (s.reg x).toNat) % 256) ∧
        t.reg 15 = if (s.reg y).toNat < (s.reg x).toNat then 0x00#8 else 0x01#8)

/-- R150, R152, with R143, for either shift source (D14, D15; log entries 14, 15). -/
def Obligations.ShiftsWriteResultThenBitOut : Prop :=
  ∀ x y : RegIdx,
    decodeWord (BitVec.ofNat 16 (0x8006 + x.val * 256 + y.val * 16)) = some (.shr x y) ∧
    decodeWord (BitVec.ofNat 16 (0x800E + x.val * 256 + y.val * 16)) = some (.shl x y) ∧
    ∀ (s : State) (src : Byte),
      (s.params.shiftSource = .vx ∧ src = s.reg x ∨ s.params.shiftSource = .vy ∧ src = s.reg y) →
      (∃ t, exec (.shr x y) s = .next t ∧ OnlyRegs [x, 15] s t ∧
        (x ≠ 15 → (t.reg x).toNat = src.toNat / 2) ∧ (t.reg 15).toNat = src.toNat % 2) ∧
      (∃ t, exec (.shl x y) s = .next t ∧ OnlyRegs [x, 15] s t ∧
        (x ≠ 15 → (t.reg x).toNat = src.toNat * 2 % 256) ∧ (t.reg 15).toNat = src.toNat / 128)

/-- R153 (b) to (f), the spec's inferences: the laws without a remainder, for `x` other than 15. -/
def Obligations.ArithmeticLosesNothing : Prop :=
  ∀ (x y : RegIdx) (s t : State), x ≠ 15 →
    (exec (.addReg x y) s = .next t →
      (t.reg x).toNat + 256 * (t.reg 15).toNat = (s.reg x).toNat + (s.reg y).toNat) ∧
    (exec (.subReg x y) s = .next t →
      (t.reg x).toNat + (s.reg y).toNat = (s.reg x).toNat + 256 * (1 - (t.reg 15).toNat) ∧
        ((t.reg 15).toNat = 1 ↔ (s.reg y).toNat ≤ (s.reg x).toNat)) ∧
    (exec (.subnReg x y) s = .next t →
      (t.reg x).toNat + (s.reg x).toNat = (s.reg y).toNat + 256 * (1 - (t.reg 15).toNat) ∧
        ((t.reg 15).toNat = 1 ↔ (s.reg x).toNat ≤ (s.reg y).toNat)) ∧
    (s.params.shiftSource = .vx → exec (.shr x y) s = .next t →
      2 * (t.reg x).toNat + (t.reg 15).toNat = (s.reg x).toNat) ∧
    (s.params.shiftSource = .vx → exec (.shl x y) s = .next t →
      (t.reg x).toNat + 256 * (t.reg 15).toNat = 2 * (s.reg x).toNat) ∧
    (s.params.shiftSource = .vy → exec (.shr x y) s = .next t →
      2 * (t.reg x).toNat + (t.reg 15).toNat = (s.reg y).toNat) ∧
    (s.params.shiftSource = .vy → exec (.shl x y) s = .next t →
      (t.reg x).toNat + 256 * (t.reg 15).toNat = 2 * (s.reg y).toNat)

/-- R37, R153 (h). After an instruction that writes VF as a flag, VF is 0x00 or 0x01, for every `x` and `y`; a DXYN
that raises writes none (D19, log entry 16). -/
def Obligations.FlagsAreZeroOrOne : Prop :=
  ∀ (i : Instr) (s t : State), exec i s = .next t →
    ((∃ x y, i = .addReg x y ∨ i = .subReg x y ∨ i = .subnReg x y ∨ i = .shr x y ∨ i = .shl x y) ∨
      (∃ x y n, i = .drw x y n ∧ (n.val = 0 ∨ s.i.toNat + n.val ≤ 4096))) →
    t.reg 15 = 0x00#8 ∨ t.reg 15 = 0x01#8

/-- R22, R37. Each instruction writes only the general registers the spec lists for it (R22 is the spec's inference). -/
def Obligations.InstructionsWriteOnlyListedRegisters : Prop :=
  ∀ (i : Instr) (s t : State), exec i s = .next t → SameRegsBut (writtenRegs i) s t

/-- R155, R156. CXNN writes the cycle's random byte under the mask, whatever byte the cycle carries, and a step hands the
Cycle's byte to it. -/
def Obligations.RandomWritesMaskedInput : Prop :=
  ∀ (x : RegIdx) (nn : Byte),
    decodeWord (BitVec.ofNat 16 (0xC000 + x.val * 256 + nn.toNat)) = some (.rnd x nn) ∧
    (∀ s : State, ∃ t, exec (.rnd x nn) s = .next t ∧ OnlyRegs [x] s t ∧
      ∀ k, (t.reg x).getLsbD k = (s.rnd.getLsbD k && nn.getLsbD k)) ∧
    ∀ (s : State) (rnd : Byte), s.Executes rnd (.rnd x nn) →
      ∃ t, step s = .next t ∧ ∀ k, (t.reg x).getLsbD k = (rnd.getLsbD k && nn.getLsbD k)

/-- R155. No other instruction reads the random input: with another byte it does the same (D22, log entry 3). -/
def Obligations.OnlyRandomReadsRandomInput : Prop :=
  ∀ (i : Instr) (s t : State) (b : Byte), (∀ x nn, i ≠ .rnd x nn) → exec i s = .next t →
    exec i { s with rnd := b } = .next { t with rnd := b }

/-! ### Index and memory (42_index_memory.md) -/

/-- R171, R172, R173. The three writes of `I`; no flag. Whatever the font base is. -/
def Obligations.IndexInstructionsWriteIndex : Prop :=
  (∀ nnn : Imm12, decodeWord (BitVec.ofNat 16 (0xA000 + nnn.toNat)) = some (.ldI nnn) ∧
    ∀ s, ∃ t, exec (.ldI nnn) s = .next t ∧ t.i.toNat = nnn.toNat ∧ OnlyI s t) ∧
  ∀ x : RegIdx,
    decodeWord (BitVec.ofNat 16 (0xF01E + x.val * 256)) = some (.addIVx x) ∧
    decodeWord (BitVec.ofNat 16 (0xF029 + x.val * 256)) = some (.ldFVx x) ∧
    ∀ s : State,
      (∃ t, exec (.addIVx x) s = .next t ∧ t.i.toNat = (s.i.toNat + (s.reg x).toNat) % 65536 ∧ OnlyI s t) ∧
      (∃ t, exec (.ldFVx x) s = .next t ∧
        t.i.toNat = s.params.fontBase.val + 5 * ((s.reg x).toNat % 16) ∧ OnlyI s t)

/-- R174: the digits are stored, or, where the third address is past memory, those that fit are and the first
address past memory is reported (the triple is D26, the prefix D12; log entries 13, 20).
R232 calls such an address at most 4110: that for I above 4110 it is I itself is the model's own deduction from R61
and R70 (DEDUCED, log entry 20). -/
def Obligations.BcdStoresThreeDigits : Prop :=
  ∀ x : RegIdx, decodeWord (BitVec.ofNat 16 (0xF033 + x.val * 256)) = some (.ldBVx x) ∧
    ∀ (s : State) (v a : Nat) (digits : List Nat), s.MemCanonical → v = (s.reg x).toNat → a = s.i.toNat →
      digits = [v / 100, v / 10 % 10, v % 10] →
      (a + 2 ≤ 4095 →
        ∃ t, exec (.ldBVx x) s = .next t ∧
          (∀ k, k < 3 → (t.readByte (a + k)).toNat = digits.getD k 0) ∧ OnlyBytes a 3 s t) ∧
      (4095 < a + 2 →
        ∃ t, exec (.ldBVx x) s = .next t ∧ Reports 2#3 (BitVec.ofNat 16 (max a 4096)) (s.pc - 2#16) t ∧
          (∀ k, k < 3 → a + k ≤ 4095 → (t.readByte (a + k)).toNat = digits.getD k 0) ∧
          SameMemoryOutside a (4096 - a) s t ∧ t.sansReport s = { s with mem := t.mem })

/-- R175: `V0` to `Vx` are stored, or, where the last address is past memory, those that fit are and the first address
past memory is reported (the triple is D26, the prefix D12; log entries 13, 20); `I` stays (D21, log entry 18).
R232 calls such an address at most 4110: that for I above 4110 it is I itself is the model's own deduction from R61
and R70 (DEDUCED, log entry 20). -/
def Obligations.StoreWritesRegistersToMemory : Prop :=
  ∀ x : RegIdx, decodeWord (BitVec.ofNat 16 (0xF055 + x.val * 256)) = some (.storeRegs x) ∧
    ∀ (s : State) (a : Nat), s.MemCanonical → a = s.i.toNat →
      (a + x.val ≤ 4095 →
        ∃ t, exec (.storeRegs x) s = .next t ∧
          (∀ r : RegIdx, r.val ≤ x.val → t.readByte (a + r.val) = s.reg r) ∧ OnlyBytes a (x.val + 1) s t) ∧
      (4095 < a + x.val →
        ∃ t, exec (.storeRegs x) s = .next t ∧ Reports 2#3 (BitVec.ofNat 16 (max a 4096)) (s.pc - 2#16) t ∧
          (∀ r : RegIdx, r.val ≤ x.val → a + r.val ≤ 4095 → t.readByte (a + r.val) = s.reg r) ∧
          SameMemoryOutside a (4096 - a) s t ∧ t.sansReport s = { s with mem := t.mem })

/-- R177: `V0` to `Vx` are loaded, or, where the last address is past memory, those that fit are and the first address
past memory is reported (the triple is D26, the prefix D12; log entries 13, 20); `I` stays (D21, log entry 18).
R232 calls such an address at most 4110: that for I above 4110 it is I itself is the model's own deduction from R61
and R70 (DEDUCED, log entry 20). -/
def Obligations.LoadReadsRegistersFromMemory : Prop :=
  ∀ x : RegIdx, decodeWord (BitVec.ofNat 16 (0xF065 + x.val * 256)) = some (.loadRegs x) ∧
    ∀ (s : State) (a : Nat), a = s.i.toNat →
      (a + x.val ≤ 4095 →
        ∃ t, exec (.loadRegs x) s = .next t ∧
          (∀ r : RegIdx, t.reg r = if r.val ≤ x.val then s.readByte (a + r.val) else s.reg r) ∧
          SameMemory s t ∧ t = { s with v := t.v }) ∧
      (4095 < a + x.val →
        ∃ t, exec (.loadRegs x) s = .next t ∧ Reports 2#3 (BitVec.ofNat 16 (max a 4096)) (s.pc - 2#16) t ∧
          (∀ r : RegIdx, t.reg r = if r.val ≤ x.val ∧ a + r.val ≤ 4095 then s.readByte (a + r.val) else s.reg r) ∧
          SameMemory s t ∧ t.sansReport s = { s with v := t.v })

/-- R175, R176, R177 and the property S7: what FX55 stores, FX65 from the same memory and `I` loads back, whatever the
registers hold by then (D21, log entry 18). -/
def Obligations.StoreThenLoadRoundTrips : Prop :=
  ∀ (x : RegIdx) (s t u : State), s.MemCanonical → s.i.toNat + x.val ≤ 4095 → exec (.storeRegs x) s = .next t →
    u.mem = t.mem → u.params = t.params → u.i = t.i →
    ∃ w, exec (.loadRegs x) u = .next w ∧ (∀ r : RegIdx, r.val ≤ x.val → w.reg r = s.reg r) ∧
      ∀ r : RegIdx, x.val < r.val → w.reg r = u.reg r

/-! ### Display (43_display.md) -/

/-- R191. Every pixel goes off, and nothing else changes. -/
def Obligations.ClearTurnsEveryPixelOff : Prop :=
  decodeWord 0x00E0#16 = some .cls ∧
    ∀ s, ∃ t, exec .cls s = .next t ∧ (∀ px py, t.pixel px py = false) ∧ SameMemory s t ∧ t = { s with fb := t.fb }

/-- R192, R194, R196: the loops in closed form. Where all `n` rows can be read, each pixel under a set sprite bit is
toggled, every other pixel stays, and VF says whether a pixel went off; the origin is the registers' old values
reduced by 64 and by `DRAW_Y_START_MOD`, and what lies past the edge is not drawn. Where a row cannot be read,
nothing but the report changes, and the first address past memory is reported (D13, D18, D19, D26; log entries 14, 16,
20). R232 calls that address at most 4110: that for I above 4110 it is I itself is the model's own deduction from R61
and R70 (DEDUCED, log entry 20). -/
def Obligations.DrawTogglesSpritePixels : Prop :=
  ∀ (x y : RegIdx) (n : Fin 16),
    decodeWord (BitVec.ofNat 16 (0xD000 + x.val * 256 + y.val * 16 + n.val)) = some (.drw x y n) ∧
    ∀ (s : State) (a m : Nat) (rows : List Byte), a = s.i.toNat →
      (s.params.drawYStartMod = .mod64 ∧ m = 64 ∨ s.params.drawYStartMod = .mod32 ∧ m = 32) →
      rows = (List.range n.val).map (fun r => s.readByte (a + r)) →
      (n.val = 0 ∨ a + n.val ≤ 4096 →
        ∃ t, exec (.drw x y n) s = .next t ∧
          (∀ px py, t.pixel px py =
            (s.pixel px py != spriteBit rows ((s.reg x).toNat % 64) ((s.reg y).toNat % m) px py)) ∧
          (t.reg 15 = 0x01#8 ∧ (∃ px py, s.pixel px py = true ∧ t.pixel px py = false) ∨
            t.reg 15 = 0x00#8 ∧ ¬ ∃ px py, s.pixel px py = true ∧ t.pixel px py = false) ∧
          SameRegsBut [15] s t ∧ SameMemory s t ∧ t = { s with v := t.v, fb := t.fb }) ∧
      (0 < n.val → 4096 < a + n.val →
        ∃ t, exec (.drw x y n) s = .next t ∧ Reports 2#3 (BitVec.ofNat 16 (max a 4096)) (s.pc - 2#16) t ∧
          SameMemory s t ∧ t.sansReport s = s)

/-- R193, the spec's inference. DXY0 draws nothing and sets VF to 0, whatever `I` is (D19, log entry 16). -/
def Obligations.DrawOfNoRowsOnlyClearsFlag : Prop :=
  ∀ (x y : RegIdx) (s : State), ∃ t, exec (.drw x y 0) s = .next t ∧ t.reg 15 = 0x00#8 ∧
    (∀ px py, t.pixel px py = s.pixel px py) ∧ OnlyRegs [15] s t

/-- R197 (c) and the property S3: a second draw of the same sprite at the same origin restores the picture; and over an
empty region the first draw reports no collision and the second one reports it exactly where a set bit of the
sprite falls inside the grid (R197 is the spec's inference). (With `x` or `y` 15 the second origin is the first draw's flag.) -/
def Obligations.DrawTwiceRestoresPicture : Prop :=
  ∀ (x y : RegIdx) (n : Fin 16) (s : State), x ≠ 15 → y ≠ 15 →
    (n.val = 0 ∨ s.i.toNat + n.val ≤ 4096) →
    ∃ t u, exec (.drw x y n) s = .next t ∧ exec (.drw x y n) t = .next u ∧ u.fb = s.fb ∧
      ((∀ px py, s.pixel px py = true → t.pixel px py = true) →
        t.reg 15 = 0x00#8 ∧ (u.reg 15 = 0x01#8 ↔ ∃ px py, t.pixel px py ≠ s.pixel px py))

/-! ### Keypad and timers (44_keypad_timers.md) -/

/-- R211, R212, R213: a skip on the key `Vx`; a number above 15 raises `OutOfBounds.Key` (D20, log entry 17). -/
def Obligations.KeySkipsTestHeldKey : Prop :=
  ∀ x : RegIdx, decodeWord (BitVec.ofNat 16 (0xE09E + x.val * 256)) = some (.skp x) ∧
    decodeWord (BitVec.ofNat 16 (0xE0A1 + x.val * 256)) = some (.sknp x) ∧
    ∀ s : State,
      (∀ k : KeyIdx, (s.reg x).toNat = k.val →
        (∃ t, exec (.skp x) s = .next t ∧ t.pc = (if s.keyHeld k then s.pc + 2#16 else s.pc) ∧ OnlyPc s t) ∧
        (∃ t, exec (.sknp x) s = .next t ∧ t.pc = (if s.keyHeld k then s.pc else s.pc + 2#16) ∧ OnlyPc s t)) ∧
      (15 < (s.reg x).toNat → ∀ i ∈ [Instr.skp x, Instr.sknp x],
        ∃ t, exec i s = .next t ∧ Reports 4#3 (BitVec.ofNat 16 (s.reg x).toNat) (s.pc - 2#16) t ∧
          SameMemory s t ∧ t.sansReport s = s)

/-- R214: the lowest held key is stored, or `PC` goes back to the instruction. -/
def Obligations.WaitTakesLowestHeldKey : Prop :=
  ∀ x : RegIdx, decodeWord (BitVec.ofNat 16 (0xF00A + x.val * 256)) = some (.ldVxK x) ∧
    ∀ s : State,
      (∀ k : KeyIdx, s.keyHeld k = true → (∀ j, j < k → s.keyHeld j = false) →
        ∃ t, exec (.ldVxK x) s = .next t ∧ (t.reg x).toNat = k.val ∧ OnlyRegs [x] s t) ∧
      ((∀ k, s.keyHeld k = false) →
        ∃ t, exec (.ldVxK x) s = .next t ∧ t.pc = s.pc - 2#16 ∧ OnlyPc s t)

/-- R215, R216, R217. The three moves between a register and a timer. -/
def Obligations.TimerInstructionsMoveTimers : Prop :=
  ∀ x : RegIdx, decodeWord (BitVec.ofNat 16 (0xF007 + x.val * 256)) = some (.ldVxDt x) ∧
    decodeWord (BitVec.ofNat 16 (0xF015 + x.val * 256)) = some (.ldDtVx x) ∧
    decodeWord (BitVec.ofNat 16 (0xF018 + x.val * 256)) = some (.ldStVx x) ∧
    ∀ s : State,
      (∃ t, exec (.ldVxDt x) s = .next t ∧ t.reg x = s.dt ∧ OnlyRegs [x] s t) ∧
      (∃ t, exec (.ldDtVx x) s = .next t ∧ t.dt = s.reg x ∧ SameMemory s t ∧ t = { s with dt := t.dt }) ∧
      (∃ t, exec (.ldStVx x) s = .next t ∧ t.st = s.reg x ∧ SameMemory s t ∧ t = { s with st := t.st })

/-! ### Rules about the whole machine -/

/-- R23, R28, R29, R30, R31, R36. Which instructions write what: the screen only CLS and DRW; `I` only ANNN, FX1E and
FX29; memory only FX33 and FX55; the stack cells only CALL and its count only CALL and RET; `DT` only FX15; `ST` only
FX18; the keypad, the run status, the parameters and the host's schedule none. -/
def Obligations.EachStateHasItsWriters : Prop :=
  ∀ (i : Instr) (s t : State), exec i s = .next t →
    (t.fb ≠ s.fb → i = .cls ∨ ∃ x y n, i = .drw x y n) ∧
    (t.i ≠ s.i → (∃ nnn, i = .ldI nnn) ∨ ∃ x, i = .addIVx x ∨ i = .ldFVx x) ∧
    (t.mem ≠ s.mem → ∃ x, i = .ldBVx x ∨ i = .storeRegs x) ∧
    (t.stack ≠ s.stack → ∃ nnn, i = .call nnn) ∧
    (t.sp ≠ s.sp → i = .ret ∨ ∃ nnn, i = .call nnn) ∧
    (t.dt ≠ s.dt → ∃ x, i = .ldDtVx x) ∧
    (t.st ≠ s.st → ∃ x, i = .ldStVx x) ∧
    t.key = s.key ∧ t.status = s.status ∧ t.params = s.params ∧ t.pending = s.pending ∧ t.rnd = s.rnd ∧
    t.draws = s.draws

/-- R36, R238. A program cannot observe `ST`, the error latches or the answer of an earlier Cycle: two states that differ
in nothing else lead to two states that differ in nothing else (the latches are D26, log entry 20). -/
def Obligations.ProgramCannotSeeReportsOrSound : Prop :=
  ∀ (i : Instr) (s s' t t' : State), s.seenByProgram = s'.seenByProgram →
    exec i s = .next t → exec i s' = .next t' → t.seenByProgram = t'.seenByProgram

/-- R34, R242, R288. The parameters are fixed for the run and the sticky mark is never cleared, not even by a Reset; a
step takes exactly one transaction off the schedule, so a schedule of one run stays one (R287). The fields are the
model's (log entries 1, 4, 6). -/
def Obligations.StepKeepsParametersAndMark : Prop :=
  ∀ s t : State, step s = .next t →
    t.params = s.params ∧ (s.condSeen = true → t.condSeen = true) ∧ t.pending = s.pending.tail ∧
      (s.OneRun → t.OneRun)

/-- R239, R240, R252, C12. Once Halted, the core stays so through every step that is not a Reset, and keeps its report,
`PC`, `V`, `I`, `FB` and the stack; of the rest of the spec's state memory changes only by a Load, the keys only by a
SetKey, the timers only by a Tick (D23, D25, D27; log entries 19, 21). -/
def Obligations.HaltedKeepsItsReport : Prop :=
  ∀ s t : State, s.status = .halted → s.pending.head? ≠ some .reset → step s = .next t →
    t.status = .halted ∧ t.errCause = s.errCause ∧ t.errVal = s.errVal ∧ t.errAddr = s.errAddr ∧ t.pc = s.pc ∧
      t.v = s.v ∧ t.i = s.i ∧ t.fb = s.fb ∧ t.stack = s.stack ∧ t.sp = s.sp ∧
      (t.mem ≠ s.mem → ∃ rom, s.pending.head? = some (.load rom)) ∧
      (t.key ≠ s.key → ∃ k p, s.pending.head? = some (.setKey k p)) ∧
      (t.dt ≠ s.dt ∨ t.st ≠ s.st → s.pending.head? = some .tick)

/-! ### Invariants -/

/-- The reset state meets the invariant. -/
def Obligations.ResetStateMeetsInvariant : Prop := State.reset.Inv

/-- Every step keeps memory in its canonical form (the form is the model's: log entry 10). -/
def Obligations.StepKeepsMemoryCanonical : Prop :=
  ∀ s t : State, s.MemCanonical → step s = .next t → t.MemCanonical

/-- R231, R233, R234, R242. Every step keeps the latches, the status and the sticky mark in agreement (D12, D26; log
entries 6, 13, 20). -/
def Obligations.StepKeepsReportsInAgreement : Prop :=
  ∀ s t : State, s.ReportsAgree → step s = .next t → t.ReportsAgree

/-- R121. Every step keeps the valid call-stack cells even addresses in `[0x202, 4096]`. -/
def Obligations.StepKeepsReturnAddressesLegal : Prop :=
  ∀ s t : State, s.ReturnsLegal → step s = .next t → t.ReturnsLegal

/-- The canonical form of memory is the model's own (DESIGN CHOICE, log entry 10) and stands for the 4096 bytes of
10_state.md R26: it is unique, so memories that read the same are equal data. -/
def Obligations.CanonicalMemoriesReadingAlikeAreEqual : Prop :=
  ∀ (base : FontBase) (m m' : List Host.Cell), Memory.wf base m → Memory.wf base m' →
    (∀ a, a < 4096 → Memory.read base m a = Memory.read base m' a) → m = m'

/-! ### Encoding (30_encoding.md) -/

/-- R90, R93, R96. Decoding the bytes of a well-formed instruction, with any bytes after them, gives it back with every
operand, and leaves the bytes after it. -/
def Obligations.DecodeOfEncodeIsIdentity : Prop :=
  ∀ (i : Instr) (rest : List Byte), WellFormed i = true → decode (encodeBytes i ++ rest) = .ok (i, rest)

/-- R96. A word that decodes is the word of the instruction it decodes to, which is well-formed. -/
def Obligations.EncodeOfDecodeIsIdentity : Prop :=
  ∀ (op : Word) (i : Instr), decodeWord op = some i → WellFormed i = true ∧ encode i = op

/-- R94, R282. The decision tree is the table: a word decodes to an instruction of a row exactly when the row selects
it by `op and mask = match`, so no word matches two rows (D5, log entry 9). -/
def Obligations.DecoderAgreesWithOpcodeTable : Prop :=
  (∀ (op : Word) (r : OpcodeRow), r ∈ opcodeTable →
    (op &&& r.mask = r.value ↔ ∃ i, decodeWord op = some i ∧ i.row = r)) ∧
  ∀ (op : Word) (r r' : OpcodeRow), r ∈ opcodeTable → r' ∈ opcodeTable →
    op &&& r.mask = r.value → op &&& r'.mask = r'.value → r = r'

/-- R97. The illegal words are exactly those of the table of R97 (D5, D6; log entry 9). -/
def Obligations.IllegalWordsAreExactlyListed : Prop :=
  ∀ op : Word, decodeWord op = none ↔
    (op.toNat / 4096 = 0x0 ∧ op.toNat ≠ 0x00E0 ∧ op.toNat ≠ 0x00EE) ∨
    ((op.toNat / 4096 = 0x5 ∨ op.toNat / 4096 = 0x9) ∧ op.toNat % 16 ≠ 0) ∨
    (op.toNat / 4096 = 0x8 ∧ op.toNat % 16 ∈ [0x8, 0x9, 0xA, 0xB, 0xC, 0xD, 0xF]) ∨
    (op.toNat / 4096 = 0xE ∧ op.toNat % 256 ∉ [0x9E, 0xA1]) ∨
    (op.toNat / 4096 = 0xF ∧
      op.toNat % 256 ∉ [0x07, 0x0A, 0x15, 0x18, 0x1E, 0x29, 0x33, 0x55, 0x65])

/-- R102. The words whose encoding the source itself gives. -/
def Obligations.SourceWordsDecode : Prop :=
  decode [0x6A#8, 0x3B#8] = .ok (.ldImm 10 0x3B#8, []) ∧ decode [0xA2#8, 0x28#8] = .ok (.ldI 0x228#12, []) ∧
  decode [0xD0#8, 0x05#8] = .ok (.drw 0 0 5, []) ∧ decode [0x00#8, 0xEE#8] = .ok (.ret, []) ∧
  decode [0x00#8, 0xE3#8] = .error (.unmatchedWord 0x00E3#16)

/-! ### Observation (70_reset_and_hazards.md R280) -/

/-- R280, R36. An observation answers the value of the piece of state it names, whatever the status is, and changes
nothing else (D23, D32; log entries 4, 5, 19). That a stack cell, valid or popped, is among what can be observed is the
model's own reading (DEDUCED, log entry 23): R35 calls `STACK[0..15]` not observable, R36 lets the host observe any
state, and the model takes R35 to be about programs. -/
def Obligations.ObservationAnswersState : Prop :=
  ∀ (s : State) (what : Observable) (rest : List Transaction), s.pending = .observe what :: rest →
    ∃ seen, step s = .next { s with pending := rest, result := .value seen } ∧
      (∀ r, what = .v r → seen = .byte (s.reg r)) ∧
      (what = .i → seen = .word s.i) ∧
      (what = .pc → seen = .word s.pc) ∧
      (∀ k : Fin 16, what = .stack k → seen = .word s.stack[k.val]) ∧
      (what = .sp → seen = .count s.sp) ∧
      (what = .dt → seen = .byte s.dt) ∧
      (what = .st → seen = .byte s.st) ∧
      (what = .fb → seen = .picture s.fb) ∧
      (∀ k, what = .key k → seen = .bit (s.keyHeld k)) ∧
      (∀ a : Fin 4096, what = .mem a → seen = .byte (s.readByte a.val)) ∧
      (what = .status → seen = .runStatus s.status) ∧
      (what = .errCause → seen = .code s.errCause) ∧
      (what = .errVal → seen = .word s.errVal) ∧
      (what = .errAddr → seen = .word s.errAddr)
end

