-- ==== Sys2Proof/Laws/State.lean ====
section
/-! SUPPORT. One lemma per field per update of the state, and per accessor per update; all true by `rfl` or
one step from it. -/

namespace Sys2Proof.Machine

/-! ### `State.setReg` -/

section
variable (s : State) (r : RegIdx) (b : Byte)

@[simp] theorem setReg_v : (s.setReg r b).v = s.v.set r.val b := rfl
@[simp] theorem setReg_i : (s.setReg r b).i = s.i := rfl
@[simp] theorem setReg_pc : (s.setReg r b).pc = s.pc := rfl
@[simp] theorem setReg_stack : (s.setReg r b).stack = s.stack := rfl
@[simp] theorem setReg_sp : (s.setReg r b).sp = s.sp := rfl
@[simp] theorem setReg_dt : (s.setReg r b).dt = s.dt := rfl
@[simp] theorem setReg_st : (s.setReg r b).st = s.st := rfl
@[simp] theorem setReg_fb : (s.setReg r b).fb = s.fb := rfl
@[simp] theorem setReg_key : (s.setReg r b).key = s.key := rfl
@[simp] theorem setReg_mem : (s.setReg r b).mem = s.mem := rfl
@[simp] theorem setReg_status : (s.setReg r b).status = s.status := rfl
@[simp] theorem setReg_errCause : (s.setReg r b).errCause = s.errCause := rfl
@[simp] theorem setReg_errVal : (s.setReg r b).errVal = s.errVal := rfl
@[simp] theorem setReg_errAddr : (s.setReg r b).errAddr = s.errAddr := rfl
@[simp] theorem setReg_params : (s.setReg r b).params = s.params := rfl
@[simp] theorem setReg_pending : (s.setReg r b).pending = s.pending := rfl
@[simp] theorem setReg_rnd : (s.setReg r b).rnd = s.rnd := rfl
@[simp] theorem setReg_draws : (s.setReg r b).draws = s.draws := rfl
@[simp] theorem setReg_result : (s.setReg r b).result = s.result := rfl
@[simp] theorem setReg_condSeen : (s.setReg r b).condSeen = s.condSeen := rfl

end

/-! ### `State.setI` -/

section
variable (s : State) (w : Word)

@[simp] theorem setI_v : (s.setI w).v = s.v := rfl
@[simp] theorem setI_i : (s.setI w).i = w := rfl
@[simp] theorem setI_pc : (s.setI w).pc = s.pc := rfl
@[simp] theorem setI_stack : (s.setI w).stack = s.stack := rfl
@[simp] theorem setI_sp : (s.setI w).sp = s.sp := rfl
@[simp] theorem setI_dt : (s.setI w).dt = s.dt := rfl
@[simp] theorem setI_st : (s.setI w).st = s.st := rfl
@[simp] theorem setI_fb : (s.setI w).fb = s.fb := rfl
@[simp] theorem setI_key : (s.setI w).key = s.key := rfl
@[simp] theorem setI_mem : (s.setI w).mem = s.mem := rfl
@[simp] theorem setI_status : (s.setI w).status = s.status := rfl
@[simp] theorem setI_errCause : (s.setI w).errCause = s.errCause := rfl
@[simp] theorem setI_errVal : (s.setI w).errVal = s.errVal := rfl
@[simp] theorem setI_errAddr : (s.setI w).errAddr = s.errAddr := rfl
@[simp] theorem setI_params : (s.setI w).params = s.params := rfl
@[simp] theorem setI_pending : (s.setI w).pending = s.pending := rfl
@[simp] theorem setI_rnd : (s.setI w).rnd = s.rnd := rfl
@[simp] theorem setI_draws : (s.setI w).draws = s.draws := rfl
@[simp] theorem setI_result : (s.setI w).result = s.result := rfl
@[simp] theorem setI_condSeen : (s.setI w).condSeen = s.condSeen := rfl

end

/-! ### `State.setPc` -/

section
variable (s : State) (w : Word)

@[simp] theorem setPc_v : (s.setPc w).v = s.v := rfl
@[simp] theorem setPc_i : (s.setPc w).i = s.i := rfl
@[simp] theorem setPc_pc : (s.setPc w).pc = w := rfl
@[simp] theorem setPc_stack : (s.setPc w).stack = s.stack := rfl
@[simp] theorem setPc_sp : (s.setPc w).sp = s.sp := rfl
@[simp] theorem setPc_dt : (s.setPc w).dt = s.dt := rfl
@[simp] theorem setPc_st : (s.setPc w).st = s.st := rfl
@[simp] theorem setPc_fb : (s.setPc w).fb = s.fb := rfl
@[simp] theorem setPc_key : (s.setPc w).key = s.key := rfl
@[simp] theorem setPc_mem : (s.setPc w).mem = s.mem := rfl
@[simp] theorem setPc_status : (s.setPc w).status = s.status := rfl
@[simp] theorem setPc_errCause : (s.setPc w).errCause = s.errCause := rfl
@[simp] theorem setPc_errVal : (s.setPc w).errVal = s.errVal := rfl
@[simp] theorem setPc_errAddr : (s.setPc w).errAddr = s.errAddr := rfl
@[simp] theorem setPc_params : (s.setPc w).params = s.params := rfl
@[simp] theorem setPc_pending : (s.setPc w).pending = s.pending := rfl
@[simp] theorem setPc_rnd : (s.setPc w).rnd = s.rnd := rfl
@[simp] theorem setPc_draws : (s.setPc w).draws = s.draws := rfl
@[simp] theorem setPc_result : (s.setPc w).result = s.result := rfl
@[simp] theorem setPc_condSeen : (s.setPc w).condSeen = s.condSeen := rfl

end

/-! ### `State.setDt` -/

section
variable (s : State) (b : Byte)

@[simp] theorem setDt_v : (s.setDt b).v = s.v := rfl
@[simp] theorem setDt_i : (s.setDt b).i = s.i := rfl
@[simp] theorem setDt_pc : (s.setDt b).pc = s.pc := rfl
@[simp] theorem setDt_stack : (s.setDt b).stack = s.stack := rfl
@[simp] theorem setDt_sp : (s.setDt b).sp = s.sp := rfl
@[simp] theorem setDt_dt : (s.setDt b).dt = b := rfl
@[simp] theorem setDt_st : (s.setDt b).st = s.st := rfl
@[simp] theorem setDt_fb : (s.setDt b).fb = s.fb := rfl
@[simp] theorem setDt_key : (s.setDt b).key = s.key := rfl
@[simp] theorem setDt_mem : (s.setDt b).mem = s.mem := rfl
@[simp] theorem setDt_status : (s.setDt b).status = s.status := rfl
@[simp] theorem setDt_errCause : (s.setDt b).errCause = s.errCause := rfl
@[simp] theorem setDt_errVal : (s.setDt b).errVal = s.errVal := rfl
@[simp] theorem setDt_errAddr : (s.setDt b).errAddr = s.errAddr := rfl
@[simp] theorem setDt_params : (s.setDt b).params = s.params := rfl
@[simp] theorem setDt_pending : (s.setDt b).pending = s.pending := rfl
@[simp] theorem setDt_rnd : (s.setDt b).rnd = s.rnd := rfl
@[simp] theorem setDt_draws : (s.setDt b).draws = s.draws := rfl
@[simp] theorem setDt_result : (s.setDt b).result = s.result := rfl
@[simp] theorem setDt_condSeen : (s.setDt b).condSeen = s.condSeen := rfl

end

/-! ### `State.setSt` -/

section
variable (s : State) (b : Byte)

@[simp] theorem setSt_v : (s.setSt b).v = s.v := rfl
@[simp] theorem setSt_i : (s.setSt b).i = s.i := rfl
@[simp] theorem setSt_pc : (s.setSt b).pc = s.pc := rfl
@[simp] theorem setSt_stack : (s.setSt b).stack = s.stack := rfl
@[simp] theorem setSt_sp : (s.setSt b).sp = s.sp := rfl
@[simp] theorem setSt_dt : (s.setSt b).dt = s.dt := rfl
@[simp] theorem setSt_st : (s.setSt b).st = b := rfl
@[simp] theorem setSt_fb : (s.setSt b).fb = s.fb := rfl
@[simp] theorem setSt_key : (s.setSt b).key = s.key := rfl
@[simp] theorem setSt_mem : (s.setSt b).mem = s.mem := rfl
@[simp] theorem setSt_status : (s.setSt b).status = s.status := rfl
@[simp] theorem setSt_errCause : (s.setSt b).errCause = s.errCause := rfl
@[simp] theorem setSt_errVal : (s.setSt b).errVal = s.errVal := rfl
@[simp] theorem setSt_errAddr : (s.setSt b).errAddr = s.errAddr := rfl
@[simp] theorem setSt_params : (s.setSt b).params = s.params := rfl
@[simp] theorem setSt_pending : (s.setSt b).pending = s.pending := rfl
@[simp] theorem setSt_rnd : (s.setSt b).rnd = s.rnd := rfl
@[simp] theorem setSt_draws : (s.setSt b).draws = s.draws := rfl
@[simp] theorem setSt_result : (s.setSt b).result = s.result := rfl
@[simp] theorem setSt_condSeen : (s.setSt b).condSeen = s.condSeen := rfl

end

/-! ### `State.setFb` -/

section
variable (s : State) (f : FrameBuffer)

@[simp] theorem setFb_v : (s.setFb f).v = s.v := rfl
@[simp] theorem setFb_i : (s.setFb f).i = s.i := rfl
@[simp] theorem setFb_pc : (s.setFb f).pc = s.pc := rfl
@[simp] theorem setFb_stack : (s.setFb f).stack = s.stack := rfl
@[simp] theorem setFb_sp : (s.setFb f).sp = s.sp := rfl
@[simp] theorem setFb_dt : (s.setFb f).dt = s.dt := rfl
@[simp] theorem setFb_st : (s.setFb f).st = s.st := rfl
@[simp] theorem setFb_fb : (s.setFb f).fb = f := rfl
@[simp] theorem setFb_key : (s.setFb f).key = s.key := rfl
@[simp] theorem setFb_mem : (s.setFb f).mem = s.mem := rfl
@[simp] theorem setFb_status : (s.setFb f).status = s.status := rfl
@[simp] theorem setFb_errCause : (s.setFb f).errCause = s.errCause := rfl
@[simp] theorem setFb_errVal : (s.setFb f).errVal = s.errVal := rfl
@[simp] theorem setFb_errAddr : (s.setFb f).errAddr = s.errAddr := rfl
@[simp] theorem setFb_params : (s.setFb f).params = s.params := rfl
@[simp] theorem setFb_pending : (s.setFb f).pending = s.pending := rfl
@[simp] theorem setFb_rnd : (s.setFb f).rnd = s.rnd := rfl
@[simp] theorem setFb_draws : (s.setFb f).draws = s.draws := rfl
@[simp] theorem setFb_result : (s.setFb f).result = s.result := rfl
@[simp] theorem setFb_condSeen : (s.setFb f).condSeen = s.condSeen := rfl

end

/-! ### `State.writeByte` -/

section
variable (s : State) (a : Nat) (b : Byte)

@[simp] theorem writeByte_v : (s.writeByte a b).v = s.v := rfl
@[simp] theorem writeByte_i : (s.writeByte a b).i = s.i := rfl
@[simp] theorem writeByte_pc : (s.writeByte a b).pc = s.pc := rfl
@[simp] theorem writeByte_stack : (s.writeByte a b).stack = s.stack := rfl
@[simp] theorem writeByte_sp : (s.writeByte a b).sp = s.sp := rfl
@[simp] theorem writeByte_dt : (s.writeByte a b).dt = s.dt := rfl
@[simp] theorem writeByte_st : (s.writeByte a b).st = s.st := rfl
@[simp] theorem writeByte_fb : (s.writeByte a b).fb = s.fb := rfl
@[simp] theorem writeByte_key : (s.writeByte a b).key = s.key := rfl
@[simp] theorem writeByte_mem : (s.writeByte a b).mem = Memory.write s.params.fontBase s.mem a b := rfl
@[simp] theorem writeByte_status : (s.writeByte a b).status = s.status := rfl
@[simp] theorem writeByte_errCause : (s.writeByte a b).errCause = s.errCause := rfl
@[simp] theorem writeByte_errVal : (s.writeByte a b).errVal = s.errVal := rfl
@[simp] theorem writeByte_errAddr : (s.writeByte a b).errAddr = s.errAddr := rfl
@[simp] theorem writeByte_params : (s.writeByte a b).params = s.params := rfl
@[simp] theorem writeByte_pending : (s.writeByte a b).pending = s.pending := rfl
@[simp] theorem writeByte_rnd : (s.writeByte a b).rnd = s.rnd := rfl
@[simp] theorem writeByte_draws : (s.writeByte a b).draws = s.draws := rfl
@[simp] theorem writeByte_result : (s.writeByte a b).result = s.result := rfl
@[simp] theorem writeByte_condSeen : (s.writeByte a b).condSeen = s.condSeen := rfl

end

/-! ### `State.raise` -/

section
variable (s : State) (c : Condition) (w : Word)

@[simp] theorem raise_v : (s.raise c w).v = s.v := rfl
@[simp] theorem raise_i : (s.raise c w).i = s.i := rfl
@[simp] theorem raise_pc : (s.raise c w).pc = s.pc := rfl
@[simp] theorem raise_stack : (s.raise c w).stack = s.stack := rfl
@[simp] theorem raise_sp : (s.raise c w).sp = s.sp := rfl
@[simp] theorem raise_dt : (s.raise c w).dt = s.dt := rfl
@[simp] theorem raise_st : (s.raise c w).st = s.st := rfl
@[simp] theorem raise_fb : (s.raise c w).fb = s.fb := rfl
@[simp] theorem raise_key : (s.raise c w).key = s.key := rfl
@[simp] theorem raise_mem : (s.raise c w).mem = s.mem := rfl
@[simp] theorem raise_status : (s.raise c w).status = c.status s.status := rfl
@[simp] theorem raise_errCause : (s.raise c w).errCause = c.cause := rfl
@[simp] theorem raise_errVal : (s.raise c w).errVal = c.val := rfl
@[simp] theorem raise_errAddr : (s.raise c w).errAddr = w := rfl
@[simp] theorem raise_params : (s.raise c w).params = s.params := rfl
@[simp] theorem raise_pending : (s.raise c w).pending = s.pending := rfl
@[simp] theorem raise_rnd : (s.raise c w).rnd = s.rnd := rfl
@[simp] theorem raise_draws : (s.raise c w).draws = s.draws := rfl
@[simp] theorem raise_result : (s.raise c w).result = .error c.cause c.val w := rfl
@[simp] theorem raise_condSeen : (s.raise c w).condSeen = true := rfl

end

/-! ### `State.beginCycle` -/

section
variable (s : State) (b : Byte)

@[simp] theorem beginCycle_v : (s.beginCycle b).v = s.v := rfl
@[simp] theorem beginCycle_i : (s.beginCycle b).i = s.i := rfl
@[simp] theorem beginCycle_pc : (s.beginCycle b).pc = s.pc := rfl
@[simp] theorem beginCycle_stack : (s.beginCycle b).stack = s.stack := rfl
@[simp] theorem beginCycle_sp : (s.beginCycle b).sp = s.sp := rfl
@[simp] theorem beginCycle_dt : (s.beginCycle b).dt = s.dt := rfl
@[simp] theorem beginCycle_st : (s.beginCycle b).st = s.st := rfl
@[simp] theorem beginCycle_fb : (s.beginCycle b).fb = s.fb := rfl
@[simp] theorem beginCycle_key : (s.beginCycle b).key = s.key := rfl
@[simp] theorem beginCycle_mem : (s.beginCycle b).mem = s.mem := rfl
@[simp] theorem beginCycle_status : (s.beginCycle b).status = s.status := rfl
@[simp] theorem beginCycle_errCause : (s.beginCycle b).errCause = s.errCause := rfl
@[simp] theorem beginCycle_errVal : (s.beginCycle b).errVal = s.errVal := rfl
@[simp] theorem beginCycle_errAddr : (s.beginCycle b).errAddr = s.errAddr := rfl
@[simp] theorem beginCycle_params : (s.beginCycle b).params = s.params := rfl
@[simp] theorem beginCycle_pending : (s.beginCycle b).pending = s.pending := rfl
@[simp] theorem beginCycle_rnd : (s.beginCycle b).rnd = b := rfl
@[simp] theorem beginCycle_draws : (s.beginCycle b).draws = s.draws := rfl
@[simp] theorem beginCycle_result : (s.beginCycle b).result = .ok := rfl
@[simp] theorem beginCycle_condSeen : (s.beginCycle b).condSeen = s.condSeen := rfl

end

/-! ### `State.tick` -/

section
variable (s : State)

@[simp] theorem tick_v : (s.tick).v = s.v := rfl
@[simp] theorem tick_i : (s.tick).i = s.i := rfl
@[simp] theorem tick_pc : (s.tick).pc = s.pc := rfl
@[simp] theorem tick_stack : (s.tick).stack = s.stack := rfl
@[simp] theorem tick_sp : (s.tick).sp = s.sp := rfl
@[simp] theorem tick_dt : (s.tick).dt = countDown s.dt := rfl
@[simp] theorem tick_st : (s.tick).st = countDown s.st := rfl
@[simp] theorem tick_fb : (s.tick).fb = s.fb := rfl
@[simp] theorem tick_key : (s.tick).key = s.key := rfl
@[simp] theorem tick_mem : (s.tick).mem = s.mem := rfl
@[simp] theorem tick_status : (s.tick).status = s.status := rfl
@[simp] theorem tick_errCause : (s.tick).errCause = s.errCause := rfl
@[simp] theorem tick_errVal : (s.tick).errVal = s.errVal := rfl
@[simp] theorem tick_errAddr : (s.tick).errAddr = s.errAddr := rfl
@[simp] theorem tick_params : (s.tick).params = s.params := rfl
@[simp] theorem tick_pending : (s.tick).pending = s.pending := rfl
@[simp] theorem tick_rnd : (s.tick).rnd = s.rnd := rfl
@[simp] theorem tick_draws : (s.tick).draws = s.draws := rfl
@[simp] theorem tick_result : (s.tick).result = .silent := rfl
@[simp] theorem tick_condSeen : (s.tick).condSeen = s.condSeen := rfl

end

/-! ### `State.setKey` -/

section
variable (s : State) (k : KeyIdx) (p : Bool)

@[simp] theorem setKey_v : (s.setKey k p).v = s.v := rfl
@[simp] theorem setKey_i : (s.setKey k p).i = s.i := rfl
@[simp] theorem setKey_pc : (s.setKey k p).pc = s.pc := rfl
@[simp] theorem setKey_stack : (s.setKey k p).stack = s.stack := rfl
@[simp] theorem setKey_sp : (s.setKey k p).sp = s.sp := rfl
@[simp] theorem setKey_dt : (s.setKey k p).dt = s.dt := rfl
@[simp] theorem setKey_st : (s.setKey k p).st = s.st := rfl
@[simp] theorem setKey_fb : (s.setKey k p).fb = s.fb := rfl
@[simp] theorem setKey_key : (s.setKey k p).key = s.key.set k.val p := rfl
@[simp] theorem setKey_mem : (s.setKey k p).mem = s.mem := rfl
@[simp] theorem setKey_status : (s.setKey k p).status = s.status := rfl
@[simp] theorem setKey_errCause : (s.setKey k p).errCause = s.errCause := rfl
@[simp] theorem setKey_errVal : (s.setKey k p).errVal = s.errVal := rfl
@[simp] theorem setKey_errAddr : (s.setKey k p).errAddr = s.errAddr := rfl
@[simp] theorem setKey_params : (s.setKey k p).params = s.params := rfl
@[simp] theorem setKey_pending : (s.setKey k p).pending = s.pending := rfl
@[simp] theorem setKey_rnd : (s.setKey k p).rnd = s.rnd := rfl
@[simp] theorem setKey_draws : (s.setKey k p).draws = s.draws := rfl
@[simp] theorem setKey_result : (s.setKey k p).result = .silent := rfl
@[simp] theorem setKey_condSeen : (s.setKey k p).condSeen = s.condSeen := rfl

end

/-! ### `State.observe` -/

section
variable (s : State) (what : Observable)

@[simp] theorem observe_v : (s.observe what).v = s.v := rfl
@[simp] theorem observe_i : (s.observe what).i = s.i := rfl
@[simp] theorem observe_pc : (s.observe what).pc = s.pc := rfl
@[simp] theorem observe_stack : (s.observe what).stack = s.stack := rfl
@[simp] theorem observe_sp : (s.observe what).sp = s.sp := rfl
@[simp] theorem observe_dt : (s.observe what).dt = s.dt := rfl
@[simp] theorem observe_st : (s.observe what).st = s.st := rfl
@[simp] theorem observe_fb : (s.observe what).fb = s.fb := rfl
@[simp] theorem observe_key : (s.observe what).key = s.key := rfl
@[simp] theorem observe_mem : (s.observe what).mem = s.mem := rfl
@[simp] theorem observe_status : (s.observe what).status = s.status := rfl
@[simp] theorem observe_errCause : (s.observe what).errCause = s.errCause := rfl
@[simp] theorem observe_errVal : (s.observe what).errVal = s.errVal := rfl
@[simp] theorem observe_errAddr : (s.observe what).errAddr = s.errAddr := rfl
@[simp] theorem observe_params : (s.observe what).params = s.params := rfl
@[simp] theorem observe_pending : (s.observe what).pending = s.pending := rfl
@[simp] theorem observe_rnd : (s.observe what).rnd = s.rnd := rfl
@[simp] theorem observe_draws : (s.observe what).draws = s.draws := rfl
@[simp] theorem observe_result : (s.observe what).result = .value (s.observed what) := rfl
@[simp] theorem observe_condSeen : (s.observe what).condSeen = s.condSeen := rfl

end

/-! ### Accessors -/

section
variable (s : State)

@[simp] theorem reg_setReg_same (r : RegIdx) (b : Byte) : (s.setReg r b).reg r = b := by
  simp [State.reg]

theorem reg_setReg_other {r q : RegIdx} (h : q ≠ r) (b : Byte) : (s.setReg r b).reg q = s.reg q := by
  have : r.val ≠ q.val := fun e => h (Fin.ext e.symm)
  simp [State.reg, this]

theorem reg_setReg (r q : RegIdx) (b : Byte) : (s.setReg r b).reg q = if q = r then b else s.reg q := by
  split
  · subst_vars; simp
  · rw [reg_setReg_other s ‹_›]

/-- Two states with the same registers have the same register vector. -/
theorem v_ext {t : State} (h : ∀ r, t.reg r = s.reg r) : t.v = s.v :=
  Vector.ext fun i hi => h ⟨i, hi⟩

@[simp] theorem readByte_setReg (r : RegIdx) (b : Byte) (a' : Nat) : (s.setReg r b).readByte a' = s.readByte a' := rfl
@[simp] theorem pixel_setReg (r : RegIdx) (b : Byte) (px : Fin 64) (py : Fin 32) : (s.setReg r b).pixel px py = s.pixel px py := rfl
@[simp] theorem keyHeld_setReg (r : RegIdx) (b : Byte) (k : KeyIdx) : (s.setReg r b).keyHeld k = s.keyHeld k := rfl
@[simp] theorem reg_setI (w : Word) (r' : RegIdx) : (s.setI w).reg r' = s.reg r' := rfl
@[simp] theorem readByte_setI (w : Word) (a' : Nat) : (s.setI w).readByte a' = s.readByte a' := rfl
@[simp] theorem pixel_setI (w : Word) (px : Fin 64) (py : Fin 32) : (s.setI w).pixel px py = s.pixel px py := rfl
@[simp] theorem keyHeld_setI (w : Word) (k : KeyIdx) : (s.setI w).keyHeld k = s.keyHeld k := rfl
@[simp] theorem reg_setPc (w : Word) (r' : RegIdx) : (s.setPc w).reg r' = s.reg r' := rfl
@[simp] theorem readByte_setPc (w : Word) (a' : Nat) : (s.setPc w).readByte a' = s.readByte a' := rfl
@[simp] theorem pixel_setPc (w : Word) (px : Fin 64) (py : Fin 32) : (s.setPc w).pixel px py = s.pixel px py := rfl
@[simp] theorem keyHeld_setPc (w : Word) (k : KeyIdx) : (s.setPc w).keyHeld k = s.keyHeld k := rfl
@[simp] theorem reg_setDt (b : Byte) (r' : RegIdx) : (s.setDt b).reg r' = s.reg r' := rfl
@[simp] theorem readByte_setDt (b : Byte) (a' : Nat) : (s.setDt b).readByte a' = s.readByte a' := rfl
@[simp] theorem pixel_setDt (b : Byte) (px : Fin 64) (py : Fin 32) : (s.setDt b).pixel px py = s.pixel px py := rfl
@[simp] theorem keyHeld_setDt (b : Byte) (k : KeyIdx) : (s.setDt b).keyHeld k = s.keyHeld k := rfl
@[simp] theorem reg_setSt (b : Byte) (r' : RegIdx) : (s.setSt b).reg r' = s.reg r' := rfl
@[simp] theorem readByte_setSt (b : Byte) (a' : Nat) : (s.setSt b).readByte a' = s.readByte a' := rfl
@[simp] theorem pixel_setSt (b : Byte) (px : Fin 64) (py : Fin 32) : (s.setSt b).pixel px py = s.pixel px py := rfl
@[simp] theorem keyHeld_setSt (b : Byte) (k : KeyIdx) : (s.setSt b).keyHeld k = s.keyHeld k := rfl
@[simp] theorem reg_setFb (f : FrameBuffer) (r' : RegIdx) : (s.setFb f).reg r' = s.reg r' := rfl
@[simp] theorem readByte_setFb (f : FrameBuffer) (a' : Nat) : (s.setFb f).readByte a' = s.readByte a' := rfl
@[simp] theorem keyHeld_setFb (f : FrameBuffer) (k : KeyIdx) : (s.setFb f).keyHeld k = s.keyHeld k := rfl
@[simp] theorem reg_writeByte (a : Nat) (b : Byte) (r' : RegIdx) : (s.writeByte a b).reg r' = s.reg r' := rfl
@[simp] theorem pixel_writeByte (a : Nat) (b : Byte) (px : Fin 64) (py : Fin 32) : (s.writeByte a b).pixel px py = s.pixel px py := rfl
@[simp] theorem keyHeld_writeByte (a : Nat) (b : Byte) (k : KeyIdx) : (s.writeByte a b).keyHeld k = s.keyHeld k := rfl
@[simp] theorem reg_raise (c : Condition) (w : Word) (r' : RegIdx) : (s.raise c w).reg r' = s.reg r' := rfl
@[simp] theorem readByte_raise (c : Condition) (w : Word) (a' : Nat) : (s.raise c w).readByte a' = s.readByte a' := rfl
@[simp] theorem pixel_raise (c : Condition) (w : Word) (px : Fin 64) (py : Fin 32) : (s.raise c w).pixel px py = s.pixel px py := rfl
@[simp] theorem keyHeld_raise (c : Condition) (w : Word) (k : KeyIdx) : (s.raise c w).keyHeld k = s.keyHeld k := rfl
@[simp] theorem reg_beginCycle (b : Byte) (r' : RegIdx) : (s.beginCycle b).reg r' = s.reg r' := rfl
@[simp] theorem readByte_beginCycle (b : Byte) (a' : Nat) : (s.beginCycle b).readByte a' = s.readByte a' := rfl
@[simp] theorem pixel_beginCycle (b : Byte) (px : Fin 64) (py : Fin 32) : (s.beginCycle b).pixel px py = s.pixel px py := rfl
@[simp] theorem keyHeld_beginCycle (b : Byte) (k : KeyIdx) : (s.beginCycle b).keyHeld k = s.keyHeld k := rfl

end

end Sys2Proof.Machine
end

