-- ==== Sys2Proof/Laws/Memory.lean ====
section
/-! SUPPORT. The laws of memory: read after write, the canonical form is kept, and it is unique. -/

namespace Sys2Proof.Machine

/-! ### Lists of cells -/

theorem find?_eq_none {a : Nat} {m : List Host.Cell} (h : ∀ c ∈ m, c.1 ≠ a) : Memory.find? a m = none := by
  induction m with
  | nil => rfl
  | cons c m ih =>
    simp only [Memory.find?, if_neg (h c (by simp)), ih fun d hd => h d (by simp [hd])]

/-- Where the addresses rise, a listed cell is what its address finds. -/
theorem find?_of_mem {m : List Host.Cell} (hm : m.Pairwise (fun c d => c.1 < d.1)) {c : Host.Cell} (h : c ∈ m) :
    Memory.find? c.1 m = some c.2 := by
  induction m with
  | nil => simp at h
  | cons d m ih =>
    rw [List.pairwise_cons] at hm
    rcases List.mem_cons.1 h with rfl | h'
    · simp [Memory.find?]
    · have : d.1 ≠ c.1 := by have := hm.1 c h'; omega
      simp [Memory.find?, this, ih hm.2 h']

theorem mem_of_find? {a : Nat} {b : Byte} {m : List Host.Cell} (h : Memory.find? a m = some b) : (a, b) ∈ m := by
  induction m with
  | nil => simp [Memory.find?] at h
  | cons c m ih =>
    simp only [Memory.find?] at h
    split at h
    · rename_i hc; cases h; subst hc; simp
    · exact List.mem_cons_of_mem _ (ih h)

theorem find?_put_other {a a' : Nat} (h : a' ≠ a) (b : Byte) (keep : Bool) (m : List Host.Cell) :
    Memory.find? a' (Memory.put a b keep m) = Memory.find? a' m := by
  induction m with
  | nil => cases keep <;> simp [Memory.put, Memory.find?, Ne.symm h]
  | cons c m ih =>
    simp only [Memory.put]
    split
    · simp [Memory.find?, ih]
    · split
      · subst_vars; cases keep <;> simp [Memory.find?, Ne.symm h]
      · cases keep <;> simp [Memory.find?, Ne.symm h]

theorem find?_put_same (a : Nat) (b : Byte) (keep : Bool) {m : List Host.Cell}
    (hm : m.Pairwise (fun c d => c.1 < d.1)) :
    Memory.find? a (Memory.put a b keep m) = if keep then some b else none := by
  induction m with
  | nil => cases keep <;> simp [Memory.put, Memory.find?]
  | cons c m ih =>
    rw [List.pairwise_cons] at hm
    simp only [Memory.put]
    split
    · rename_i hc
      have : c.1 ≠ a := by omega
      simp [Memory.find?, this, ih hm.2]
    · split
      · rename_i hc
        cases keep
        · simpa using find?_eq_none fun d hd => by have := hm.1 d hd; omega
        · simp [Memory.find?]
      · rename_i h1 h2
        cases keep
        · have hd : ∀ d ∈ m, d.1 ≠ a := fun d hd => by have := hm.1 d hd; omega
          simp [Memory.find?, h2, find?_eq_none hd]
        · simp [Memory.find?]

theorem mem_put {a : Nat} {b : Byte} {keep : Bool} {m : List Host.Cell} {c : Host.Cell}
    (h : c ∈ Memory.put a b keep m) : c ∈ m ∨ (keep = true ∧ c = (a, b)) := by
  induction m with
  | nil => cases keep <;> simp_all [Memory.put]
  | cons d m ih =>
    simp only [Memory.put] at h
    split at h
    · rcases List.mem_cons.1 h with rfl | h'
      · simp
      · rcases ih h' with h'' | h'' <;> simp [h'']
    · split at h <;> cases keep <;> simp_all <;> tauto

theorem put_pairwise (a : Nat) (b : Byte) (keep : Bool) {m : List Host.Cell}
    (hm : m.Pairwise (fun c d => c.1 < d.1)) : (Memory.put a b keep m).Pairwise (fun c d => c.1 < d.1) := by
  induction m with
  | nil => cases keep <;> simp [Memory.put]
  | cons c m ih =>
    rw [List.pairwise_cons] at hm
    simp only [Memory.put]
    split
    · refine List.pairwise_cons.2 ⟨fun d hd => ?_, ih hm.2⟩
      rcases mem_put hd with hd | ⟨-, rfl⟩
      · exact hm.1 d hd
      · assumption
    · split
      · rename_i hc
        cases keep
        · exact hm.2
        · exact List.pairwise_cons.2 ⟨fun d hd => by have := hm.1 d hd; simpa [← hc] using this, hm.2⟩
      · cases keep
        · exact List.pairwise_cons.2 hm
        · refine List.pairwise_cons.2 ⟨fun d hd => ?_, List.pairwise_cons.2 hm⟩
          rcases List.mem_cons.1 hd with rfl | hd
          · simp only; omega
          · have := hm.1 d hd; simp only; omega

/-! ### Reads, writes, the canonical form -/

section
variable {base : FontBase} {m : List Host.Cell}

theorem read_write_other {a a' : Nat} (h : a' ≠ a) (b : Byte) :
    Memory.read base (Memory.write base m a b) a' = Memory.read base m a' := by
  simp [Memory.read, Memory.write, find?_put_other h]

theorem read_write_same (hm : m.Pairwise (fun c d => c.1 < d.1)) (a : Nat) (b : Byte) :
    Memory.read base (Memory.write base m a b) a = b := by
  simp only [Memory.read, Memory.write, find?_put_same a b _ hm]
  by_cases h : b = Memory.background base a <;> simp [h]

/-- A write to an address that exists keeps the canonical form. -/
theorem write_wf (hm : Memory.wf base m) {a : Nat} (ha : a < 4096) (b : Byte) :
    Memory.wf base (Memory.write base m a b) := by
  refine ⟨put_pairwise a b _ hm.1, fun c hc => ?_⟩
  rcases mem_put hc with hc | ⟨hk, rfl⟩
  · exact hm.2 c hc
  · exact ⟨ha, by simpa using hk⟩

theorem nil_wf : Memory.wf base [] := by simp [Memory.wf]

/-- What a canonical memory lists: the addresses whose byte is not the background. -/
theorem mem_iff_read (hm : Memory.wf base m) (c : Host.Cell) :
    c ∈ m ↔ Memory.read base m c.1 = c.2 ∧ c.2 ≠ Memory.background base c.1 := by
  constructor
  · intro h
    exact ⟨by simp [Memory.read, find?_of_mem hm.1 h], (hm.2 c h).2⟩
  · rintro ⟨h, hb⟩
    cases hf : Memory.find? c.1 m with
    | none => simp [Memory.read, hf] at h; exact absurd h.symm hb
    | some b =>
      have := mem_of_find? hf
      simp [Memory.read, hf] at h
      subst h
      exact this

/-- A canonical memory reads as the background where no byte exists. -/
theorem read_beyond (hm : Memory.wf base m) {a : Nat} (ha : 4096 ≤ a) :
    Memory.read base m a = Memory.background base a := by
  have : ∀ c ∈ m, c.1 ≠ a := fun c hc => by
    have h : c.1 < 4096 := (hm.2 c hc).1
    omega
  simp [Memory.read, find?_eq_none this]

end

/-! ### At the state -/

section
variable (s : State)

theorem readByte_writeByte_other {a a' : Nat} (h : a' ≠ a) (b : Byte) :
    (s.writeByte a b).readByte a' = s.readByte a' := read_write_other h b

variable {s}

theorem readByte_writeByte_same (hm : Memory.wf s.params.fontBase s.mem) (a : Nat) (b : Byte) :
    (s.writeByte a b).readByte a = b := read_write_same hm.1 a b

theorem writeByte_wf (hm : Memory.wf s.params.fontBase s.mem) {a : Nat} (ha : a < 4096) (b : Byte) :
    Memory.wf (s.writeByte a b).params.fontBase (s.writeByte a b).mem := write_wf hm ha b

/-- The Load's loop keeps the canonical form where its span exists. -/
theorem writeBytes_wf (bytes : List Byte) {s : State} (hm : Memory.wf s.params.fontBase s.mem) {a : Nat}
    (ha : a + bytes.length ≤ 4096) :
    Memory.wf (s.writeBytes a bytes).params.fontBase (s.writeBytes a bytes).mem := by
  induction bytes generalizing s a with
  | nil => exact hm
  | cons b bs ih =>
    simp only [List.length_cons] at ha
    exact ih (writeByte_wf hm (by omega) b) (by omega)

theorem writeBytes_readByte_outside (bytes : List Byte) (s : State) {a a' : Nat}
    (h : a' < a ∨ a + bytes.length ≤ a') : (s.writeBytes a bytes).readByte a' = s.readByte a' := by
  induction bytes generalizing s a with
  | nil => rfl
  | cons b bs ih =>
    simp only [List.length_cons] at h
    rw [State.writeBytes, ih _ (by omega), readByte_writeByte_other s (by omega)]

theorem writeBytes_readByte (bytes : List Byte) {s : State} (hm : s.mem.Pairwise (fun c d => c.1 < d.1)) {a k : Nat}
    (h : k < bytes.length) : (s.writeBytes a bytes).readByte (a + k) = bytes[k] := by
  induction bytes generalizing s a k with
  | nil => simp at h
  | cons b bs ih =>
    cases k with
    | zero =>
      rw [State.writeBytes, writeBytes_readByte_outside bs _ (by omega)]
      exact read_write_same hm a b
    | succ k =>
      have := ih (s := s.writeByte a b) (put_pairwise a b _ hm) (a := a + 1) (k := k) (by simpa using h)
      rw [State.writeBytes, show a + (k + 1) = a + 1 + k by omega, this]
      rfl

/-- The Load's loop changes memory only. -/
theorem writeBytes_eq (bytes : List Byte) (s : State) (a : Nat) :
    s.writeBytes a bytes = { s with mem := (s.writeBytes a bytes).mem } := by
  induction bytes generalizing s a with
  | nil => rfl
  | cons b bs ih => rw [State.writeBytes, ih]; rfl

end

end Sys2Proof.Machine
end

