-- ==== Sys2Proof/Laws/Ops.lean ====
section
/-! SUPPORT. One lemma per shared operation that says everything it can do. -/

namespace Sys2Proof.Machine

/-! ### Memory access -/

theorem memRead_ok {s : State} {a : Nat} (h : a ≤ 4095) : s.memRead a = .ok (s.readByte a) := by
  simp [State.memRead]; omega

theorem memRead_error {s : State} {a : Nat} (h : 4095 < a) : s.memRead a = .error (.memory a) := by
  simp [State.memRead]; omega

theorem memWrite_ok {s : State} {a : Nat} (b : Byte) (h : a ≤ 4095) : s.memWrite a b = .ok (s.writeByte a b) := by
  simp [State.memWrite]; omega

theorem memWrite_error {s : State} {a : Nat} (b : Byte) (h : 4095 < a) : s.memWrite a b = .error (.memory a) := by
  simp [State.memWrite]; omega

/-- A block inside memory is read whole. -/
theorem readBlock_ok (s : State) {a n : Nat} (h : a + n ≤ 4096) :
    s.readBlock a n = .ok ((List.range n).map fun k => s.readByte (a + k)) := by
  induction n generalizing a with
  | zero => rfl
  | succ n ih =>
    rw [State.readBlock, memRead_ok (by omega)]
    simp only [ih (a := a + 1) (by omega), List.range_succ_eq_map, List.map_cons, List.map_map, Nat.add_zero]
    congr 2
    exact List.map_congr_left fun k _ => by simp only [Function.comp, Nat.succ_eq_add_one]; congr 1; omega

/-- The address that raises where a block of bytes from `a` reaches past memory: the first one above 4095. -/
def firstBad (a : Nat) : Nat := max a 4096

theorem readBlock_error (s : State) {a n : Nat} (h : 4096 < a + n) (hn : 0 < n) :
    s.readBlock a n = .error (.memory (firstBad a)) := by
  induction n generalizing a with
  | zero => omega
  | succ n ih =>
    rw [State.readBlock]
    by_cases ha : 4095 < a
    · rw [memRead_error ha]
      simp only [firstBad]; congr 2; omega
    · rw [memRead_ok (by omega)]
      simp only [ih (a := a + 1) (by omega) (by omega), firstBad]
      congr 2; omega

/-- A block that fits is stored whole, byte by byte. -/
theorem storeBlock_done (bytes : List Byte) (s : State) {a : Nat} (h : a + bytes.length ≤ 4096) :
    s.storeBlock a bytes = .done (s.writeBytes a bytes) := by
  induction bytes generalizing s a with
  | nil => rfl
  | cons b bs ih =>
    simp only [List.length_cons] at h
    rw [State.storeBlock, memWrite_ok _ (by omega)]
    exact ih _ (by omega)

/-- A block that does not fit is stored up to the last address, and then the first address beyond raises. -/
theorem storeBlock_raised (bytes : List Byte) (s : State) {a : Nat} (h : 4096 < a + bytes.length)
    (hn : 0 < bytes.length) :
    s.storeBlock a bytes = .raised (.memory (firstBad a)) (s.writeBytes a (bytes.take (4096 - a))) := by
  induction bytes generalizing s a with
  | nil => simp at hn
  | cons b bs ih =>
    simp only [List.length_cons] at h
    rw [State.storeBlock]
    by_cases ha : 4095 < a
    · rw [memWrite_error _ ha]
      have h1 : firstBad a = a := by simp only [firstBad]; omega
      have h2 : 4096 - a = 0 := by omega
      simp [h1, h2, State.writeBytes]
    · rw [memWrite_ok _ (by omega)]
      have h1 : firstBad (a + 1) = firstBad a := by simp only [firstBad]; omega
      have h2 : 4096 - a = (4096 - (a + 1)) + 1 := by omega
      simp only [ih (s.writeByte a b) (a := a + 1) (by omega) (by omega), h1, h2, List.take_succ_cons,
        State.writeBytes]

/-- The registers of a list loaded from bytes at rising addresses. -/
def State.setRegsFrom (s : State) (a : Nat) : List RegIdx → State
  | [] => s
  | r :: rs => (s.setReg r (s.readByte a)).setRegsFrom (a + 1) rs

theorem setRegsFrom_eq (rs : List RegIdx) (s : State) (a : Nat) :
    s.setRegsFrom a rs = { s with v := (s.setRegsFrom a rs).v } := by
  induction rs generalizing s a with
  | nil => rfl
  | cons r rs ih => rw [State.setRegsFrom, ih]; rfl

theorem setRegsFrom_reg_outside (rs : List RegIdx) (s : State) (a : Nat) {q : RegIdx} (h : q ∉ rs) :
    (s.setRegsFrom a rs).reg q = s.reg q := by
  induction rs generalizing s a with
  | nil => rfl
  | cons r rs ih =>
    simp only [List.mem_cons, not_or] at h
    rw [State.setRegsFrom, ih _ _ h.2, reg_setReg_other s h.1]

theorem setRegsFrom_reg (rs : List RegIdx) (s : State) (a : Nat) (hd : rs.Nodup) {k : Nat} (h : k < rs.length) :
    (s.setRegsFrom a rs).reg rs[k] = s.readByte (a + k) := by
  induction rs generalizing s a k with
  | nil => simp at h
  | cons r rs ih =>
    rw [List.nodup_cons] at hd
    cases k with
    | zero => simp [State.setRegsFrom, setRegsFrom_reg_outside rs _ _ hd.1]
    | succ k =>
      have := ih (s.setReg r (s.readByte a)) (a + 1) hd.2 (k := k) (by simpa using h)
      rw [show a + (k + 1) = a + 1 + k by omega]
      simpa [State.setRegsFrom] using this

theorem loadBlock_done (rs : List RegIdx) (s : State) {a : Nat} (h : a + rs.length ≤ 4096) :
    s.loadBlock a rs = .done (s.setRegsFrom a rs) := by
  induction rs generalizing s a with
  | nil => rfl
  | cons r rs ih =>
    simp only [List.length_cons] at h
    rw [State.loadBlock, memRead_ok (by omega)]
    exact ih _ (by omega)

theorem loadBlock_raised (rs : List RegIdx) (s : State) {a : Nat} (h : 4096 < a + rs.length) (hn : 0 < rs.length) :
    s.loadBlock a rs = .raised (.memory (firstBad a)) (s.setRegsFrom a (rs.take (4096 - a))) := by
  induction rs generalizing s a with
  | nil => simp at hn
  | cons r rs ih =>
    simp only [List.length_cons] at h
    rw [State.loadBlock]
    by_cases ha : 4095 < a
    · rw [memRead_error ha]
      have h1 : firstBad a = a := by simp only [firstBad]; omega
      have h2 : 4096 - a = 0 := by omega
      simp [h1, h2, State.setRegsFrom]
    · rw [memRead_ok (by omega)]
      have h1 : firstBad (a + 1) = firstBad a := by simp only [firstBad]; omega
      have h2 : 4096 - a = (4096 - (a + 1)) + 1 := by omega
      simp only [ih (s.setReg r (s.readByte a)) (a := a + 1) (by omega) (by omega), h1, h2, List.take_succ_cons,
        State.setRegsFrom]

/-! ### The loop registers of FX55 and FX65 -/

theorem regsUpTo_length (x : RegIdx) : (regsUpTo x).length = x.val + 1 := by
  revert x; decide

theorem regsUpTo_nodup (x : RegIdx) : (regsUpTo x).Nodup := by
  revert x; decide

theorem mem_regsUpTo (x r : RegIdx) : r ∈ regsUpTo x ↔ r.val ≤ x.val := by
  revert x r; decide

theorem regsUpTo_get (x : RegIdx) {k : Nat} (h : k < (regsUpTo x).length) :
    (regsUpTo x)[k] = ⟨k, by rw [regsUpTo_length] at h; omega⟩ := by
  rw [regsUpTo_length] at h
  have hk : k < 16 := by omega
  have : ∀ k : Fin 16, ([0, 1, 2, 3, 4, 5, 6, 7, 8, 9, 10, 11, 12, 13, 14, 15] : List RegIdx)[k.val]'(by simp) = k := by
    decide
  simp only [regsUpTo, List.getElem_take]
  exact this ⟨k, hk⟩

/-! ### Conditions -/

/-- What a raise in the execute step leaves (60_exceptions.md R236), said whole. -/
theorem raiseHere_eq (s : State) (c : Condition) :
    s.raiseHere c = { s with
      errCause := c.cause, errVal := c.val, errAddr := s.pc - 2#16, status := c.status s.status
      result := .error c.cause c.val (s.pc - 2#16), condSeen := true } := rfl

/-! ### The call stack -/

theorem push_done {s : State} (w target : Word) (h : s.sp.val < 16) :
    s.push w target = .done { s with stack := s.stack.set s.sp.val w, sp := ⟨s.sp.val + 1, by omega⟩ } :=
  dif_pos h

theorem push_raised {s : State} (w target : Word) (h : s.sp.val = 16) :
    s.push w target = .raised (.stackOverflow target) s :=
  dif_neg (by omega)

theorem popPc_done {s : State} (h : 0 < s.sp.val) :
    s.popPc = .done { s with sp := ⟨s.sp.val - 1, by omega⟩, pc := s.stack[s.sp.val - 1] } :=
  dif_pos h

theorem popPc_raised {s : State} (h : s.sp.val = 0) : s.popPc = .raised .stackUnderflow s :=
  dif_neg (by omega)

/-! ### The keypad -/

theorem keyOperand_ok (p : KeyIndexPolicy) {b : Byte} (h : b.toNat < 16) : keyOperand p b = .ok ⟨b.toNat, h⟩ :=
  dif_pos h

theorem keyOperand_error (p : KeyIndexPolicy) {b : Byte} (h : 15 < b.toNat) : keyOperand p b = .error (.key b) := by
  cases p
  exact dif_neg (by omega)

theorem allKeys_get (k : Fin 16) : allKeys[k.val]'(by simp [allKeys]) = k := by
  revert k; decide

/-- The first held key is held, and no lower one is. -/
theorem firstKey_some {s : State} {k : KeyIdx} :
    s.firstKey = some k ↔ s.keyHeld k = true ∧ ∀ j, j < k → s.keyHeld j = false := by
  rw [State.firstKey, List.find?_eq_some_iff_getElem]
  constructor
  · rintro ⟨hk, i, hi, he, hlt⟩
    have hi' : i < 16 := by simpa [allKeys] using hi
    rw [allKeys_get ⟨i, hi'⟩] at he
    subst he
    refine ⟨hk, fun j hj => ?_⟩
    simpa [allKeys_get j] using hlt j.val hj
  · rintro ⟨hk, hlt⟩
    refine ⟨hk, k.val, by simp [allKeys], allKeys_get k, fun j hj => ?_⟩
    have hj' : j < 16 := by omega
    simpa [allKeys_get ⟨j, hj'⟩] using hlt ⟨j, hj'⟩ hj

theorem firstKey_none {s : State} : s.firstKey = none ↔ ∀ k, s.keyHeld k = false := by
  rw [State.firstKey, List.find?_eq_none]
  constructor
  · intro h k
    simpa using h k (by revert k; decide)
  · intro h k _
    simp [h k]

/-! ### Flags -/

theorem reg_setRegAndFlag_vf (s : State) (x : RegIdx) (b : Byte) (f : Bool) :
    (s.setRegAndFlag x b f).reg vf = flagByte f := by simp [State.setRegAndFlag]

theorem reg_setRegAndFlag (s : State) {x q : RegIdx} (h : q ≠ vf) (b : Byte) (f : Bool) :
    (s.setRegAndFlag x b f).reg q = if q = x then b else s.reg q := by
  rw [State.setRegAndFlag, reg_setReg_other _ h, reg_setReg]

theorem setRegAndFlag_eq (s : State) (x : RegIdx) (b : Byte) (f : Bool) :
    s.setRegAndFlag x b f = { s with v := (s.setRegAndFlag x b f).v } := rfl

theorem flagByte_toNat (f : Bool) : (flagByte f).toNat = f.toNat := by cases f <;> rfl

/-- `Vx' + 256 * VF' = Vx + Vy` (41_alu.md R153 b), of the result and the carry. -/
theorem sumByte_carryOut (a b : Byte) : (sumByte a b).toNat + 256 * (carryOut a b).toNat = a.toNat + b.toNat := by
  have ha := a.isLt; have hb := b.isLt
  by_cases h : a.toNat + b.toNat > 255 <;> simp [sumByte, carryOut, h] <;> omega

/-- `Vx' + Vy = Vx + 256 * (1 - VF')` (R153 c). -/
theorem diffByte_noBorrow (a b : Byte) : (diffByte a b).toNat + b.toNat = a.toNat + 256 * (1 - (noBorrow a b).toNat) := by
  have ha := a.isLt; have hb := b.isLt
  by_cases h : a.toNat < b.toNat <;> simp [diffByte, noBorrow, h] <;> omega

/-- `2 * Vx' + VF' = s8` (R153 e). -/
theorem shiftRight_outLow (b : Byte) : 2 * (shiftRight b).toNat + (outLow b).toNat = b.toNat := by
  revert b; decide

/-- `Vx' + 256 * VF' = 2 * s8` (R153 f). -/
theorem shiftLeft_outHigh (b : Byte) : (shiftLeft b).toNat + 256 * (outHigh b).toNat = 2 * b.toNat := by
  revert b; decide

end Sys2Proof.Machine
end

