-- ==== Sys2Proof/Laws/Cycle.lean ====
section
/-! SUPPORT. What a step is, transaction by transaction, and what a Cycle of a running core is. -/

namespace Sys2Proof.Machine

/-- A scheduled transaction is what the step does. -/
theorem step_of_pending {s : State} {x : Transaction} {rest : List Transaction} (h : s.pending = x :: rest) :
    step s = transact x { s with pending := rest } := by
  simp [step, nextTransaction, State.takeTransaction, h]

/-- With nothing scheduled the step is a Cycle with the next free byte. -/
theorem step_of_no_pending {s : State} (h : s.pending = []) :
    step s = cycle (Config.rnd s.draws) { s with draws := s.draws + 1 } := by
  simp [step, nextTransaction, State.takeTransaction, h, transact]

/-- The state without the transaction that comes next, said without a case split. -/
def State.afterTake (s : State) : State :=
  { s with pending := s.pending.tail, draws := if s.pending = [] then s.draws + 1 else s.draws }

theorem takeTransaction_eq (s : State) : s.takeTransaction = s.afterTake := by
  rw [State.takeTransaction, State.afterTake]
  split <;> simp [*]

theorem step_of_cycleNext {s : State} {rnd : Byte} (h : s.CycleNext rnd) :
    step s = runningCycle rnd s.afterTake := by
  obtain ⟨h1, h2 | ⟨h2, rfl⟩⟩ := h
  · cases hp : s.pending with
    | nil => simp [hp] at h2
    | cons x r =>
      simp only [hp, List.head?_cons, Option.some.injEq] at h2
      subst h2
      rw [step_of_pending hp]
      simp [transact, cycle, h1, State.afterTake, hp]
  · rw [step_of_no_pending h2]
    simp [cycle, h1, State.afterTake, h2]

theorem fetchable_iff (s : State) : fetchable s.pc = true ↔ s.PcLegal := by
  simp [fetchable, and_assoc]

theorem runningCycle_illegalPc {s : State} {rnd : Byte} (h : ¬ s.PcLegal) :
    runningCycle rnd s = .next ((s.beginCycle rnd).raise (.pc s.pc) s.pc) := by
  rw [runningCycle, if_neg (by rwa [fetchable_iff])]

theorem runningCycle_decoded {s : State} {rnd : Byte} {i : Instr} (h : s.PcLegal)
    (hd : decodeWord s.fetchWord = some i) : runningCycle rnd s = exec i (s.beginCycle rnd).advance := by
  rw [runningCycle, if_pos ((fetchable_iff s).2 h), dispatchWord, hd]

theorem runningCycle_illegalWord {s : State} {rnd : Byte} (h : s.PcLegal) (hd : decodeWord s.fetchWord = none) :
    runningCycle rnd s = .next ((s.beginCycle rnd).advance.raiseHere (.fatal s.fetchWord)) := by
  rw [runningCycle, if_pos ((fetchable_iff s).2 h), dispatchWord, hd]

theorem load_fits (s : State) {rom : List Byte} (h : rom.length ≤ 3584) :
    s.load rom = { s with mem := (s.writeBytes 0x200 rom).mem, result := .ok } := by
  rw [State.load, if_neg (by simp [maxRom]; omega), writeBytes_eq]

theorem load_tooLarge (s : State) {rom : List Byte} (h : 3584 < rom.length) :
    s.load rom = { s with result := .romTooLarge } := by
  rw [State.load, if_pos (by simp [maxRom]; omega)]

/-- One tick of a counter, as a number. -/
theorem countDown_toNat (b : Byte) : (countDown b).toNat = b.toNat - 1 := by
  revert b; decide

end Sys2Proof.Machine
end

