-- ==== Sys2Proof/Laws/Display.lean ====
section
/-! SUPPORT. What the sprite loops of DXYN do to a pixel and to the collision flag. -/

namespace Sys2Proof.Machine

theorem pixel_toggle (fb : FrameBuffer) (px qx : Fin 64) (py qy : Fin 32) :
    (fb.toggle px py).pixel qx qy = (fb.pixel qx qy ^^ decide (qx = px ∧ qy = py)) := by
  by_cases hy : qy = py
  · subst hy
    by_cases hx : qx = px
    · subst hx; simp [FrameBuffer.toggle, FrameBuffer.pixel]
    · have : px.val ≠ qx.val := fun e => hx (Fin.ext e.symm)
      simp [FrameBuffer.toggle, FrameBuffer.pixel, hx, this]
  · have : py.val ≠ qy.val := fun e => hy (Fin.ext e.symm)
    simp [FrameBuffer.toggle, FrameBuffer.pixel, hy, this]

theorem pixel_clear (px : Fin 64) (py : Fin 32) : FrameBuffer.clear.pixel px py = false := by
  simp [FrameBuffer.clear, FrameBuffer.pixel]

/-- Two framebuffers with the same pixels are equal. -/
theorem fb_ext {f g : FrameBuffer} (h : ∀ px py, f.pixel px py = g.pixel px py) : f = g :=
  Vector.ext fun y hy => Vector.ext fun x hx => h ⟨x, hx⟩ ⟨y, hy⟩

/-- Whether the columns `cs` of a sprite row set their bit over `(px, py)`, drawn at row `qy`. -/
def columnBit (row : Byte) (sx : Nat) (qy : Fin 32) (cs : List Nat) (px : Fin 64) (py : Fin 32) : Bool :=
  decide (py = qy) && cs.any fun c => decide (px.val = sx + c) && row.getLsbD (7 - c)

/-- The column loop, whole: it toggles the pixels of the set bits of distinct rising columns, and collects
whether one of them was on. -/
theorem columns_spec (row : Byte) (sx : Nat) (qy : Fin 32) (cs : List Nat) (hcs : cs.Pairwise (· < ·)) (b : Blit) :
    (∀ px py, (Blit.columns .clip row sx qy b cs).fb.pixel px py = (b.fb.pixel px py ^^ columnBit row sx qy cs px py)) ∧
    ((Blit.columns .clip row sx qy b cs).coll = true ↔
      b.coll = true ∨ ∃ px py, b.fb.pixel px py = true ∧ columnBit row sx qy cs px py = true) := by
  induction cs generalizing b with
  | nil => simp [Blit.columns, columnBit]
  | cons c cs ih =>
    rw [List.pairwise_cons] at hcs
    simp only [Blit.columns]
    split
    · rename_i hc
      split
      · rename_i hbit
        obtain ⟨ih1, ih2⟩ := ih hcs.2 (b.hit ⟨sx + c, hc⟩ qy)
        have key : ∀ px py, columnBit row sx qy (c :: cs) px py =
            (decide (px = ⟨sx + c, hc⟩ ∧ py = qy) ^^ columnBit row sx qy cs px py) := by
          intro px py
          by_cases hy : py = qy
          · by_cases hx : px.val = sx + c
            · have hn : cs.any (fun c' => decide (px.val = sx + c') && row.getLsbD (7 - c')) = false := by
                rw [List.any_eq_false]
                intro c' hc'
                have := hcs.1 c' hc'
                simp; omega
              have hx' : px = ⟨sx + c, hc⟩ := Fin.ext hx
              have e1 : columnBit row sx qy cs px py = false := by rw [columnBit, hn, Bool.and_false]
              have e2 : columnBit row sx qy (c :: cs) px py = true := by simp [columnBit, hy, hx, hbit]
              rw [e1, e2]; simp [hx', hy]
            · have hx' : px ≠ ⟨sx + c, hc⟩ := fun e => hx (by rw [e])
              simp [columnBit, hx, hx', hy]
          · simp [columnBit, hy]
        refine ⟨fun px py => ?_, ?_⟩
        · rw [ih1, key, Blit.hit, pixel_toggle, Bool.xor_assoc]
        · rw [ih2]
          simp only [Blit.hit, Bool.or_eq_true, pixel_toggle]
          constructor
          · rintro ((h | h) | ⟨px, py, h1, h2⟩)
            · exact .inl h
            · refine .inr ⟨_, _, h, ?_⟩
              simp [columnBit, hbit]
            · by_cases hp : px = ⟨sx + c, hc⟩ ∧ py = qy
              · exfalso
                simp only [columnBit, Bool.and_eq_true, List.any_eq_true, decide_eq_true_eq] at h2
                obtain ⟨-, c', hc', he, -⟩ := h2
                have := hcs.1 c' hc'
                have := congrArg Fin.val hp.1
                simp only at this
                omega
              · refine .inr ⟨px, py, ?_, ?_⟩
                · simpa [hp] using h1
                · rw [key, h2]; simp [hp]
          · rintro (h | ⟨px, py, h1, h2⟩)
            · exact .inl (.inl h)
            · by_cases hp : px = ⟨sx + c, hc⟩ ∧ py = qy
              · rw [hp.1, hp.2] at h1
                exact .inl (.inr h1)
              · refine .inr ⟨px, py, ?_, ?_⟩
                · simp [hp, h1]
                · rw [key] at h2; simpa [hp] using h2
      · rename_i hbit
        have key : ∀ px py, columnBit row sx qy (c :: cs) px py = columnBit row sx qy cs px py := by
          intro px py; simp [columnBit, hbit]
        simpa only [key] using ih hcs.2 b
    · rename_i hc
      have key : ∀ px py, columnBit row sx qy (c :: cs) px py = false := by
        intro px py
        simp only [columnBit, Bool.and_eq_false_iff]
        right
        rw [List.any_eq_false]
        intro c' hc'
        have : c ≤ c' := by
          rcases List.mem_cons.1 hc' with rfl | h
          · exact le_rfl
          · exact (hcs.1 c' h).le
        simp; omega
      simp [key]

theorem columnBit_eight (row : Byte) (sx : Nat) (qy : Fin 32) (px : Fin 64) (py : Fin 32) :
    columnBit row sx qy [0, 1, 2, 3, 4, 5, 6, 7] px py =
      (decide (py = qy) && (decide (sx ≤ px.val) && decide (px.val < sx + 8) && row.getLsbD (7 - (px.val - sx)))) := by
  by_cases h : sx ≤ px.val ∧ px.val < sx + 8
  · obtain ⟨c, hc, hc8⟩ : ∃ c, px.val = sx + c ∧ c < 8 := ⟨px.val - sx, by omega, by omega⟩
    simp only [columnBit, hc, Nat.add_left_cancel_iff, Nat.add_sub_cancel_left]
    interval_cases c <;> simp
  · have : ∀ c ∈ [0, 1, 2, 3, 4, 5, 6, 7], ¬ (px.val = sx + c) := by
      intro c hc; simp at hc; omega
    have h2 : (decide (sx ≤ px.val) && decide (px.val < sx + 8)) = false := by
      simp only [Bool.and_eq_false_iff, decide_eq_false_iff_not]; omega
    simp only [columnBit, h2, Bool.false_and, Bool.and_false, Bool.and_eq_false_iff]
    right
    rw [List.any_eq_false]
    intro c hc
    simp [this c hc]

/-- The row loop, whole: the pixels under a set sprite bit are toggled, and the flag says whether one was on. -/
theorem rows_spec (sx sy : Nat) (rows : List Byte) (b : Blit) :
    (∀ px py, (Blit.rows .clip sx sy b rows).fb.pixel px py = (b.fb.pixel px py ^^ spriteBit rows sx sy px py)) ∧
    ((Blit.rows .clip sx sy b rows).coll = true ↔
      b.coll = true ∨ ∃ px py, b.fb.pixel px py = true ∧ spriteBit rows sx sy px py = true) := by
  induction rows generalizing b sy with
  | nil => simp [Blit.rows, spriteBit]
  | cons row rows ih =>
    simp only [Blit.rows]
    split
    · rename_i hy
      have hc := columns_spec row sx ⟨sy, hy⟩ [0, 1, 2, 3, 4, 5, 6, 7] (by simp) b
      obtain ⟨ih1, ih2⟩ := ih (sy + 1) (Blit.columns .clip row sx ⟨sy, hy⟩ b [0, 1, 2, 3, 4, 5, 6, 7])
      have key : ∀ px py, spriteBit (row :: rows) sx sy px py =
          (columnBit row sx ⟨sy, hy⟩ [0, 1, 2, 3, 4, 5, 6, 7] px py ^^ spriteBit rows sx (sy + 1) px py) := by
        intro px py
        rw [columnBit_eight]
        by_cases h : py.val = sy
        · have : py = ⟨sy, hy⟩ := Fin.ext h
          subst this
          simp [spriteBit]
        · have hne : py ≠ ⟨sy, hy⟩ := fun e => h (by rw [e])
          by_cases h' : sy ≤ py.val
          · have : py.val - sy = (py.val - (sy + 1)) + 1 := by omega
            have h'' : sy + 1 ≤ py.val := by omega
            simp [spriteBit, hne, this, h', h'']
          · have h'' : ¬ sy + 1 ≤ py.val := by omega
            simp [spriteBit, hne, h', h'']
      have disj : ∀ px py, columnBit row sx ⟨sy, hy⟩ [0, 1, 2, 3, 4, 5, 6, 7] px py = true →
          spriteBit rows sx (sy + 1) px py = false := by
        intro px py h
        simp only [columnBit, Bool.and_eq_true, decide_eq_true_eq] at h
        simp [spriteBit, h.1]
      refine ⟨fun px py => ?_, ?_⟩
      · rw [ih1, hc.1, key, Bool.xor_assoc]
      · rw [ih2, hc.2]
        constructor
        · rintro ((h | ⟨px, py, h1, h2⟩) | ⟨px, py, h1, h2⟩)
          · exact .inl h
          · exact .inr ⟨px, py, h1, by rw [key, h2, disj _ _ h2]; rfl⟩
          · have hn : columnBit row sx ⟨sy, hy⟩ [0, 1, 2, 3, 4, 5, 6, 7] px py = false := by
              by_contra hne
              rw [disj px py (by simpa using hne)] at h2
              exact absurd h2 (by simp)
            rw [hc.1, hn] at h1
            exact .inr ⟨px, py, by simpa using h1, by rw [key, h2, hn]; rfl⟩
        · rintro (h | ⟨px, py, h1, h2⟩)
          · exact .inl (.inl h)
          · cases hn : columnBit row sx ⟨sy, hy⟩ [0, 1, 2, 3, 4, 5, 6, 7] px py with
            | true => exact .inl (.inr ⟨px, py, h1, hn⟩)
            | false =>
              refine .inr ⟨px, py, ?_, ?_⟩
              · rw [hc.1, hn]; simpa using h1
              · rw [key, hn] at h2; simpa using h2
    · rename_i hy
      have key : ∀ px py, spriteBit (row :: rows) sx sy px py = false := by
        intro px py
        have : ¬ sy ≤ py.val := by omega
        simp [spriteBit, this]
      simp [key]

end Sys2Proof.Machine
end

