-- ==== Sys2Proof/Laws/Encoding.lean ====
section
/-! SUPPORT. Masks and fields of a word, byte by byte. -/

namespace Sys2Proof

/-- A word is its two bytes. -/
theorem word_eq_bytes (op : Word) : op = highByte op ++ lowByte op := by
  apply BitVec.eq_of_toNat_eq
  rw [BitVec.toNat_append, ← Nat.shiftLeft_add_eq_or_of_lt (lowByte op).isLt, Nat.shiftLeft_eq]
  have := op.isLt
  simp [highByte, lowByte]; omega

theorem append_and_append (a b c d : Byte) : (a ++ b) &&& (c ++ d) = (a &&& c) ++ (b &&& d) := by
  ext i hi
  simp only [BitVec.getElem_and, BitVec.getElem_append]
  split <;> simp

theorem append_inj (a b c d : Byte) : a ++ b = c ++ d ↔ a = c ∧ b = d := by
  constructor
  · intro h
    have h' := congrArg BitVec.toNat h
    rw [BitVec.toNat_append, BitVec.toNat_append, ← Nat.shiftLeft_add_eq_or_of_lt b.isLt,
      ← Nat.shiftLeft_add_eq_or_of_lt d.isLt, Nat.shiftLeft_eq, Nat.shiftLeft_eq] at h'
    exact ⟨BitVec.eq_of_toNat_eq (by omega), BitVec.eq_of_toNat_eq (by omega)⟩
  · rintro ⟨rfl, rfl⟩; rfl

/-- A word selects a row when its two bytes select the row's two bytes. -/
theorem and_eq_iff (op : Word) (mh ml vh vl : Byte) :
    op &&& (mh ++ ml) = vh ++ vl ↔ highByte op &&& mh = vh ∧ lowByte op &&& ml = vl := by
  conv_lhs => rw [word_eq_bytes op, append_and_append]
  exact append_inj ..

/-- The bytes of a word, put together again. -/
@[simp] theorem wordOfBytes_bytes (op : Word) : wordOfBytes (highByte op) (lowByte op) = op := by
  apply BitVec.eq_of_toNat_eq
  have := op.isLt
  simp [wordOfBytes, highByte, lowByte]; omega

/-! ### The formats as numbers, and the fields of a word so composed -/

theorem toNat_formatA {code : Nat} (h : code < 16) (nnn : Imm12) :
    (formatA code nnn).toNat = code * 4096 + nnn.toNat := by
  simp [formatA]; omega

theorem toNat_formatI {code : Nat} (h : code < 16) (x : RegIdx) (nn : Byte) :
    (formatI code x nn).toNat = code * 4096 + x.val * 256 + nn.toNat := by
  have := x.isLt
  simp [formatI]; omega

theorem toNat_formatD {code : Nat} (h : code < 16) (x y : RegIdx) (n : Fin 16) :
    (formatD code x y n).toNat = code * 4096 + x.val * 256 + y.val * 16 + n.val := by
  have := x.isLt; have := y.isLt; have := n.isLt
  simp [formatD]; omega

section
variable {op : Word} {code : Nat} {x y : RegIdx} {n : Fin 16} {nn : Byte} {nnn : Imm12}

theorem fields_of_formatA (h : op.toNat = code * 4096 + nnn.toNat) :
    fieldCode op = code ∧ fieldNNN op = nnn ∧ fieldX op = topNibble nnn := by
  refine ⟨?_, BitVec.eq_of_toNat_eq ?_, Fin.ext ?_⟩
  · simp only [fieldCode]; omega
  · simp only [fieldNNN, BitVec.toNat_ofNat]; omega
  · simp only [fieldX, topNibble]; omega

theorem fields_of_formatI (h : op.toNat = code * 4096 + x.val * 256 + nn.toNat) :
    fieldCode op = code ∧ fieldX op = x ∧ fieldNN op = nn := by
  have := x.isLt
  refine ⟨?_, Fin.ext ?_, BitVec.eq_of_toNat_eq ?_⟩
  · simp only [fieldCode]; omega
  · simp only [fieldX]; omega
  · simp only [fieldNN, BitVec.toNat_ofNat]; omega

theorem fields_of_formatD (h : op.toNat = code * 4096 + x.val * 256 + y.val * 16 + n.val) :
    fieldCode op = code ∧ fieldX op = x ∧ fieldY op = y ∧ fieldN op = n := by
  have := x.isLt; have := y.isLt; have := n.isLt
  refine ⟨?_, Fin.ext ?_, Fin.ext ?_, Fin.ext ?_⟩
  · simp only [fieldCode]; omega
  · simp only [fieldX]; omega
  · simp only [fieldY]; omega
  · simp only [fieldN]; omega

/-- Every word is composed of its fields in each of the three ways. -/
theorem word_of_fields (op : Word) :
    op.toNat = fieldCode op * 4096 + (fieldNNN op).toNat ∧
    op.toNat = fieldCode op * 4096 + (fieldX op).val * 256 + (fieldNN op).toNat ∧
    op.toNat = fieldCode op * 4096 + (fieldX op).val * 256 + (fieldY op).val * 16 + (fieldN op).val := by
  have := op.isLt
  simp only [fieldCode, fieldNNN, fieldX, fieldNN, fieldY, fieldN, BitVec.toNat_ofNat]
  omega

end

/-! ### The bytes of the formats -/

theorem highByte_formatA (code : Nat) (nnn : Imm12) :
    highByte (formatA code nnn) = BitVec.ofNat 8 (code * 16 + nnn.toNat / 256) := by
  apply BitVec.eq_of_toNat_eq
  simp [highByte, formatA]; omega

theorem highByte_formatI (code : Nat) (x : RegIdx) (nn : Byte) :
    highByte (formatI code x nn) = BitVec.ofNat 8 (code * 16 + x.val) := by
  apply BitVec.eq_of_toNat_eq
  simp [highByte, formatI]; omega

theorem lowByte_formatI (code : Nat) (x : RegIdx) (nn : Byte) : lowByte (formatI code x nn) = nn := by
  apply BitVec.eq_of_toNat_eq
  simp [lowByte, formatI]; omega

theorem highByte_formatD (code : Nat) (x y : RegIdx) (n : Fin 16) :
    highByte (formatD code x y n) = BitVec.ofNat 8 (code * 16 + x.val) := by
  apply BitVec.eq_of_toNat_eq
  simp [highByte, formatD]; omega

theorem lowByte_formatD (code : Nat) (x y : RegIdx) (n : Fin 16) :
    lowByte (formatD code x y n) = BitVec.ofNat 8 (y.val * 16 + n.val) := by
  apply BitVec.eq_of_toNat_eq
  simp [lowByte, formatD]; omega

/-! ### The fixed bits of the formats -/

/-- The high nibble of a byte with the code in it. -/
theorem code_mask : ∀ code x : Fin 16, BitVec.ofNat 8 (code.val * 16 + x.val) &&& 0xF0#8 = BitVec.ofNat 8 (code.val * 16) := by
  decide

/-- The low nibble of a byte with the function in it. -/
theorem function_mask : ∀ y n : Fin 16, BitVec.ofNat 8 (y.val * 16 + n.val) &&& 0x0F#8 = BitVec.ofNat 8 n.val := by
  decide

theorem and_zero_byte (b : Byte) : b &&& 0x00#8 = 0x00#8 := by simp

theorem and_full_byte (b : Byte) : b &&& 0xFF#8 = b := by
  revert b; decide

/-- Format A under the mask of the code. -/
theorem formatA_mask (code : Fin 16) (nnn : Imm12) :
    formatA code.val nnn &&& (0xF0#8 ++ 0x00#8) = BitVec.ofNat 8 (code.val * 16) ++ 0x00#8 := by
  refine (and_eq_iff ..).2 ⟨?_, and_zero_byte _⟩
  rw [highByte_formatA]
  exact code_mask code ⟨nnn.toNat / 256, by omega⟩

/-- Format I under the mask of the code. -/
theorem formatI_mask (code x : Fin 16) (nn : Byte) :
    formatI code.val x nn &&& (0xF0#8 ++ 0x00#8) = BitVec.ofNat 8 (code.val * 16) ++ 0x00#8 := by
  refine (and_eq_iff ..).2 ⟨?_, and_zero_byte _⟩
  rw [highByte_formatI]
  exact code_mask code x

/-- Format X under the mask of the code and the function byte. -/
theorem formatX_mask (code x : Fin 16) (nn : Byte) :
    formatI code.val x nn &&& (0xF0#8 ++ 0xFF#8) = BitVec.ofNat 8 (code.val * 16) ++ nn := by
  refine (and_eq_iff ..).2 ⟨?_, by rw [lowByte_formatI, and_full_byte]⟩
  rw [highByte_formatI]
  exact code_mask code x

/-- Format R under the mask of the code and the function nibble. -/
theorem formatR_mask (code x y n : Fin 16) :
    formatD code.val x y n &&& (0xF0#8 ++ 0x0F#8) = BitVec.ofNat 8 (code.val * 16) ++ BitVec.ofNat 8 n.val := by
  refine (and_eq_iff ..).2 ⟨?_, ?_⟩
  · rw [highByte_formatD]; exact code_mask code x
  · rw [lowByte_formatD]; exact function_mask y n

/-- Format D under the mask of the code. -/
theorem formatD_mask (code x y n : Fin 16) :
    formatD code.val x y n &&& (0xF0#8 ++ 0x00#8) = BitVec.ofNat 8 (code.val * 16) ++ 0x00#8 := by
  refine (and_eq_iff ..).2 ⟨?_, and_zero_byte _⟩
  rw [highByte_formatD]
  exact code_mask code x

end Sys2Proof
end

