-- ==== Sys2Proof/Laws/PerInstr.lean ====
section
/-! SUPPORT. Laws of the instructions as syntax, one lemma per constructor. -/

namespace Sys2Proof.Laws

/-- The word of an instruction has the fixed bits of its row of 30_encoding.md R96: `op and mask = match`. -/
def EncodingFitsRow.Statement (i : Instr) : Prop := encode i &&& i.row.mask = i.row.value

theorem EncodingFitsRow.cls : EncodingFitsRow.Statement .cls := rfl
theorem EncodingFitsRow.ret : EncodingFitsRow.Statement .ret := rfl
theorem EncodingFitsRow.jp (nnn : Imm12) : EncodingFitsRow.Statement (.jp nnn) := formatA_mask 1 nnn
theorem EncodingFitsRow.call (nnn : Imm12) : EncodingFitsRow.Statement (.call nnn) := formatA_mask 2 nnn
theorem EncodingFitsRow.seImm (x : RegIdx) (nn : Byte) : EncodingFitsRow.Statement (.seImm x nn) := formatI_mask 3 x nn
theorem EncodingFitsRow.sneImm (x : RegIdx) (nn : Byte) : EncodingFitsRow.Statement (.sneImm x nn) := formatI_mask 4 x nn
theorem EncodingFitsRow.seReg (x y : RegIdx) : EncodingFitsRow.Statement (.seReg x y) := formatR_mask 5 x y 0
theorem EncodingFitsRow.ldImm (x : RegIdx) (nn : Byte) : EncodingFitsRow.Statement (.ldImm x nn) := formatI_mask 6 x nn
theorem EncodingFitsRow.addImm (x : RegIdx) (nn : Byte) : EncodingFitsRow.Statement (.addImm x nn) := formatI_mask 7 x nn
theorem EncodingFitsRow.ldReg (x y : RegIdx) : EncodingFitsRow.Statement (.ldReg x y) := formatR_mask 8 x y 0
theorem EncodingFitsRow.orReg (x y : RegIdx) : EncodingFitsRow.Statement (.orReg x y) := formatR_mask 8 x y 1
theorem EncodingFitsRow.andReg (x y : RegIdx) : EncodingFitsRow.Statement (.andReg x y) := formatR_mask 8 x y 2
theorem EncodingFitsRow.xorReg (x y : RegIdx) : EncodingFitsRow.Statement (.xorReg x y) := formatR_mask 8 x y 3
theorem EncodingFitsRow.addReg (x y : RegIdx) : EncodingFitsRow.Statement (.addReg x y) := formatR_mask 8 x y 4
theorem EncodingFitsRow.subReg (x y : RegIdx) : EncodingFitsRow.Statement (.subReg x y) := formatR_mask 8 x y 5
theorem EncodingFitsRow.shr (x y : RegIdx) : EncodingFitsRow.Statement (.shr x y) := formatR_mask 8 x y 6
theorem EncodingFitsRow.subnReg (x y : RegIdx) : EncodingFitsRow.Statement (.subnReg x y) := formatR_mask 8 x y 7
theorem EncodingFitsRow.shl (x y : RegIdx) : EncodingFitsRow.Statement (.shl x y) := formatR_mask 8 x y 14
theorem EncodingFitsRow.sneReg (x y : RegIdx) : EncodingFitsRow.Statement (.sneReg x y) := formatR_mask 9 x y 0
theorem EncodingFitsRow.ldI (nnn : Imm12) : EncodingFitsRow.Statement (.ldI nnn) := formatA_mask 10 nnn
theorem EncodingFitsRow.jpOffset (nnn : Imm12) (x : RegIdx) : EncodingFitsRow.Statement (.jpOffset nnn x) := formatA_mask 11 nnn
theorem EncodingFitsRow.rnd (x : RegIdx) (nn : Byte) : EncodingFitsRow.Statement (.rnd x nn) := formatI_mask 12 x nn
theorem EncodingFitsRow.drw (x y : RegIdx) (n : Fin 16) : EncodingFitsRow.Statement (.drw x y n) := formatD_mask 13 x y n
theorem EncodingFitsRow.skp (x : RegIdx) : EncodingFitsRow.Statement (.skp x) := formatX_mask 14 x 0x9E#8
theorem EncodingFitsRow.sknp (x : RegIdx) : EncodingFitsRow.Statement (.sknp x) := formatX_mask 14 x 0xA1#8
theorem EncodingFitsRow.ldVxDt (x : RegIdx) : EncodingFitsRow.Statement (.ldVxDt x) := formatX_mask 15 x 0x07#8
theorem EncodingFitsRow.ldVxK (x : RegIdx) : EncodingFitsRow.Statement (.ldVxK x) := formatX_mask 15 x 0x0A#8
theorem EncodingFitsRow.ldDtVx (x : RegIdx) : EncodingFitsRow.Statement (.ldDtVx x) := formatX_mask 15 x 0x15#8
theorem EncodingFitsRow.ldStVx (x : RegIdx) : EncodingFitsRow.Statement (.ldStVx x) := formatX_mask 15 x 0x18#8
theorem EncodingFitsRow.addIVx (x : RegIdx) : EncodingFitsRow.Statement (.addIVx x) := formatX_mask 15 x 0x1E#8
theorem EncodingFitsRow.ldFVx (x : RegIdx) : EncodingFitsRow.Statement (.ldFVx x) := formatX_mask 15 x 0x29#8
theorem EncodingFitsRow.ldBVx (x : RegIdx) : EncodingFitsRow.Statement (.ldBVx x) := formatX_mask 15 x 0x33#8
theorem EncodingFitsRow.storeRegs (x : RegIdx) : EncodingFitsRow.Statement (.storeRegs x) := formatX_mask 15 x 0x55#8
theorem EncodingFitsRow.loadRegs (x : RegIdx) : EncodingFitsRow.Statement (.loadRegs x) := formatX_mask 15 x 0x65#8

end Sys2Proof.Laws
end

