-- ==== Sys2Proof/Tests/Slice0.lean ====
section
/-! SUPPORT. Tests: the well-formedness check, one written-out word per constructor, the vectors of
95_test_vectors.md, and a witness for the hypotheses of every statement. -/

namespace Sys2Proof.Tests

open Sys2Proof.Machine

/-! ### Well-formedness -/

theorem test_illformed_jpOffset : WellFormed (.jpOffset 0x300#12 4) = false := by decide
theorem test_wellformed_jpOffset : WellFormed (.jpOffset 0x300#12 3) = true := by decide

/-! ### Decoding: one word per constructor, bit by bit from the formats of 30_encoding.md R92 and R96 -/

theorem test_decode_system : decodeWord 0b0000000011100000#16 = some .cls ∧
    decodeWord 0b0000000011101110#16 = some .ret := by decide
theorem test_decode_format_a : decodeWord 0b0001101010111100#16 = some (.jp 0xABC#12) ∧
    decodeWord 0b0010001100000001#16 = some (.call 0x301#12) ∧
    decodeWord 0b1010111111111111#16 = some (.ldI 0xFFF#12) ∧
    decodeWord 0b1011001100000000#16 = some (.jpOffset 0x300#12 3) := by decide
theorem test_decode_format_i : decodeWord 0b0011001101000101#16 = some (.seImm 3 0x45#8) ∧
    decodeWord 0b0100101000010000#16 = some (.sneImm 10 0x10#8) ∧
    decodeWord 0b0110101000111011#16 = some (.ldImm 10 0x3B#8) ∧
    decodeWord 0b0111001000000101#16 = some (.addImm 2 0x05#8) ∧
    decodeWord 0b1100001100001111#16 = some (.rnd 3 0x0F#8) := by decide
theorem test_decode_skip_registers : decodeWord 0b0101000111100000#16 = some (.seReg 1 14) ∧
    decodeWord 0b1001000111100000#16 = some (.sneReg 1 14) := by decide
theorem test_decode_family_8_logic : decodeWord 0b1000000100100000#16 = some (.ldReg 1 2) ∧
    decodeWord 0b1000000100100001#16 = some (.orReg 1 2) ∧
    decodeWord 0b1000000100100010#16 = some (.andReg 1 2) ∧
    decodeWord 0b1000000100100011#16 = some (.xorReg 1 2) := by decide
theorem test_decode_family_8_arithmetic : decodeWord 0b1000111100010100#16 = some (.addReg 15 1) ∧
    decodeWord 0b1000111100010101#16 = some (.subReg 15 1) ∧
    decodeWord 0b1000111100010110#16 = some (.shr 15 1) ∧
    decodeWord 0b1000111100010111#16 = some (.subnReg 15 1) ∧
    decodeWord 0b1000111100011110#16 = some (.shl 15 1) := by decide
theorem test_decode_draw : decodeWord 0b1101000100101111#16 = some (.drw 1 2 15) := by decide
theorem test_decode_family_e : decodeWord 0b1110010110011110#16 = some (.skp 5) ∧
    decodeWord 0b1110010110100001#16 = some (.sknp 5) := by decide
theorem test_decode_family_f_timers : decodeWord 0b1111101100000111#16 = some (.ldVxDt 11) ∧
    decodeWord 0b1111101100001010#16 = some (.ldVxK 11) ∧
    decodeWord 0b1111101100010101#16 = some (.ldDtVx 11) ∧
    decodeWord 0b1111101100011000#16 = some (.ldStVx 11) := by decide
theorem test_decode_family_f_memory : decodeWord 0b1111101100011110#16 = some (.addIVx 11) ∧
    decodeWord 0b1111101100101001#16 = some (.ldFVx 11) ∧
    decodeWord 0b1111101100110011#16 = some (.ldBVx 11) ∧
    decodeWord 0b1111101101010101#16 = some (.storeRegs 11) ∧
    decodeWord 0b1111101101100101#16 = some (.loadRegs 11) := by decide
/-- T60-4, T60-5, T60-6. -/
theorem test_decode_illegal : decodeWord 0x00E3#16 = none ∧ decodeWord 0x0123#16 = none ∧ decodeWord 0x5011#16 = none ∧
    decodeWord 0x8128#16 = none ∧ decodeWord 0x9121#16 = none ∧ decodeWord 0xE100#16 = none ∧
    decodeWord 0xF000#16 = none := by decide
theorem test_decode_tooShort : decode [0x6A#8] = .error .tooShort := rfl

/-! ### Steps -/

/-- The reset state with the suggested font base 0x050 and the values of R7. -/
def start : State := State.resetWith ⟨0x050, .vx, .v0, .clip, .mod64, .fault⟩

/-- The same with `SHIFT_SOURCE = VY` and `JUMP_OFFSET_REG = VX`, and the start modulus 32. -/
def other : State := State.resetWith ⟨0x050, .vy, .vx, .clip, .mod32, .fault⟩

/-- `s` with the word `op` at its `PC` and one Cycle(rnd) scheduled. -/
def ready (op : Word) (s : State) (rnd : Byte := 0x00#8) : State := { s.placeWord op with pending := [.cycle rnd] }

/-- The step answers a next state of which `p` holds. -/
def goes (s : State) (p : State → Bool) : Bool :=
  match step s with
  | .next t => p t
  | .fault _ => false
  | .refused _ => false

/-- `s` with `V1` and `V2` set. -/
def v12 (a b : Byte) (s : State) : State := (s.setReg 1 a).setReg 2 b

/-- `V1` and `VF`. -/
def v1f (t : State) : Byte × Byte := (t.reg 1, t.reg 15)

/-- The triple that was reported, if one was (60_exceptions.md R232). -/
def report (t : State) : Option (Nat × Nat × Nat) :=
  match t.result with
  | .error c v a => if t.errCause = c ∧ t.errVal = v ∧ t.errAddr = a then some (c.toNat, v.toNat, a.toNat) else none
  | .silent | .ok | .refusedHalted | .romTooLarge | .value _ => none

/-- The pixels that are on in the listed rows, as `(column, row)`. -/
def onIn (rows : List (Fin 32)) (t : State) : List (Nat × Nat) :=
  rows.flatMap fun py => ((List.finRange 64).filter fun px => t.pixel px py).map fun px => (px.val, py.val)

/-- T20-1 and T20-2: the byte order of the fetch. -/
theorem test_fetch_bigEndian : goes (ready 0x1234#16 start) (fun t => t.pc = 0x234#16) = true := by decide
theorem test_fetch_notSwapped : goes (ready 0x3412#16 start) (fun t => t.pc = 0x202#16) = true := by decide
/-- T20-3, T20-4. -/
theorem test_fetch_oddPc : goes (({ start with pending := [.cycle 0#8] } : State).setPc 0x201#16)
    (fun t => report t = some (3, 0x201, 0x201) ∧ t.pc = 0x201#16 ∧ t.status = .running) = true := by decide
theorem test_fetch_lowPc : goes (({ start with pending := [.cycle 0#8] } : State).setPc 0x1FE#16)
    (fun t => report t = some (3, 0x1FE, 0x1FE)) = true := by decide
/-- T20-5: the last fetch address, and the one after it. -/
theorem test_fetch_last : goes (ready 0x6007#16 (start.setPc 0xFFE#16))
    (fun t => t.reg 0 = 7#8 ∧ t.pc = 0x1000#16 ∧ t.result = .ok) = true := by decide
theorem test_fetch_pastEnd : goes (({ start with pending := [.cycle 0#8] } : State).setPc 0x1000#16)
    (fun t => report t = some (3, 0x1000, 0x1000)) = true := by decide
/-- T60-1: reset with no Load fetches the word 0x0000. -/
theorem test_fetch_empty : goes State.reset (fun t => report t = some (1, 0, 0x200) ∧ t.status = .halted ∧ t.pc = 0x202#16) = true := by decide
/-- S9. -/
theorem test_illegal_halts : goes (ready 0x5011#16 start)
    (fun t => report t = some (1, 0x5011, 0x200) ∧ t.status = .halted ∧ t.pc = 0x202#16) = true := by decide

/-- T40-1, T40-20. -/
theorem test_jp : goes (ready 0x1ABC#16 start) (fun t => t.pc = 0xABC#16) = true := by decide
theorem test_jp_odd : goes (ready 0x1201#16 start) (fun t => t.pc = 0x201#16 ∧ t.result = .ok) = true := by decide
/-- T40-3, T40-18. -/
theorem test_call : goes (ready 0x2300#16 start) (fun t => t.stack[0] = 0x202#16 ∧ t.sp = 1 ∧ t.pc = 0x300#16) = true := by decide
theorem test_call_full : goes (ready 0x2300#16 { start with sp := 16 })
    (fun t => report t = some (5, 0x300, 0x200) ∧ t.sp = 16 ∧ t.pc = 0x202#16 ∧ t.status = .running) = true := by decide
/-- T40-16, T40-17. -/
theorem test_ret : goes (ready 0x00EE#16 { start with sp := 2, pc := 0x300#16, stack := (start.stack.set 0 0x202#16).set 1 0x404#16 })
    (fun t => t.sp = 1 ∧ t.pc = 0x404#16 ∧ t.stack[1] = 0x404#16) = true := by decide
theorem test_ret_empty : goes (ready 0x00EE#16 start)
    (fun t => report t = some (6, 0, 0x200) ∧ t.pc = 0x202#16 ∧ t.status = .running) = true := by decide
/-- T40-4 to T40-12, and T40-19 at the end of memory. -/
theorem test_se_taken : goes (ready 0x3344#16 (start.setReg 3 0x44#8)) (fun t => t.pc = 0x204#16) = true := by decide
theorem test_se_atEnd : goes (ready 0x3000#16 (start.setPc 0xFFE#16)) (fun t => t.pc = 0x1002#16 ∧ t.result = .ok) = true := by decide
theorem test_sne_notTaken : goes (ready 0x4344#16 (start.setReg 3 0x44#8)) (fun t => t.pc = 0x202#16) = true := by decide
theorem test_sne_taken : goes (ready 0x4344#16 (start.setReg 3 0x45#8)) (fun t => t.pc = 0x204#16) = true := by decide
theorem test_seReg_taken : goes (ready 0x5120#16 (v12 7#8 7#8 start)) (fun t => t.pc = 0x204#16) = true := by decide
theorem test_seReg_notTaken : goes (ready 0x5120#16 (v12 7#8 8#8 start)) (fun t => t.pc = 0x202#16) = true := by decide
theorem test_sneReg_taken : goes (ready 0x9120#16 (v12 7#8 8#8 start)) (fun t => t.pc = 0x204#16) = true := by decide
theorem test_sneReg_notTaken : goes (ready 0x9120#16 (v12 7#8 7#8 start)) (fun t => t.pc = 0x202#16) = true := by decide
/-- T40-14, T40-15. -/
theorem test_jpOffset_v0 : goes (ready 0xBFFF#16 (start.setReg 0 0xFF#8)) (fun t => t.pc = 0x10FE#16) = true := by decide
theorem test_jpOffset_vx : goes (ready 0xB300#16 ((other.setReg 0 0x10#8).setReg 3 0x20#8)) (fun t => t.pc = 0x320#16) = true := by decide

/-- S10, T41-1. -/
theorem test_ldImm : goes (ready 0x6A3B#16 start) (fun t => t.reg 10 = 0x3B#8 ∧ t.pc = 0x202#16) = true := by decide
theorem test_ldImm_vf : goes (ready 0x6FFF#16 start) (fun t => t.reg 15 = 0xFF#8) = true := by decide
/-- T41-2. -/
theorem test_addImm : goes (ready 0x7205#16 ((start.setReg 2 0xFE#8).setReg 15 0x55#8))
    (fun t => t.reg 2 = 0x03#8 ∧ t.reg 15 = 0x55#8) = true := by decide
/-- T41-3 to T41-6. -/
theorem test_ldReg : goes (ready 0x8120#16 (v12 1#8 0x99#8 start)) (fun t => t.reg 1 = 0x99#8 ∧ t.reg 2 = 0x99#8) = true := by decide
theorem test_or : goes (ready 0x8121#16 ((v12 0xAC#8 0x53#8 start).setReg 15 0x77#8)) (fun t => v1f t = (0xFF#8, 0x77#8)) = true := by decide
theorem test_and : goes (ready 0x8122#16 ((v12 0xAC#8 0x53#8 start).setReg 15 0x77#8)) (fun t => v1f t = (0x00#8, 0x77#8)) = true := by decide
theorem test_xor : goes (ready 0x8123#16 ((v12 0xAC#8 0x53#8 start).setReg 15 0x77#8)) (fun t => v1f t = (0xFF#8, 0x77#8)) = true := by decide
/-- S5, T41-22. -/
theorem test_add_carry : goes (ready 0x8124#16 (v12 0xFF#8 0x01#8 start)) (fun t => v1f t = (0x00#8, 0x01#8)) = true := by decide
theorem test_add_intoVf : goes (ready 0x8F14#16 ((start.setReg 15 0xFF#8).setReg 1 0x01#8)) (fun t => t.reg 15 = 0x01#8) = true := by decide
/-- S4, T41-12. -/
theorem test_sub_borrow : goes (ready 0x8125#16 (v12 0x10#8 0x20#8 start)) (fun t => v1f t = (0xF0#8, 0x00#8)) = true := by decide
theorem test_sub_equal : goes (ready 0x8125#16 (v12 0x33#8 0x33#8 start)) (fun t => v1f t = (0x00#8, 0x01#8)) = true := by decide
/-- T41-14, T41-15. -/
theorem test_subn : goes (ready 0x8127#16 (v12 0x10#8 0x20#8 start)) (fun t => v1f t = (0x10#8, 0x01#8)) = true := by decide
theorem test_subn_borrow : goes (ready 0x8127#16 (v12 0x20#8 0x10#8 start)) (fun t => v1f t = (0xF0#8, 0x00#8)) = true := by decide
/-- T41-16, T41-20. -/
theorem test_shr_vx : goes (ready 0x8126#16 (v12 0x05#8 0x0A#8 start)) (fun t => v1f t = (0x02#8, 0x01#8)) = true := by decide
theorem test_shr_vy : goes (ready 0x8126#16 (v12 0x05#8 0x0A#8 other)) (fun t => v1f t = (0x05#8, 0x00#8)) = true := by decide
/-- T41-18, T41-21. -/
theorem test_shl_vx : goes (ready 0x812E#16 (v12 0x81#8 0x00#8 start)) (fun t => v1f t = (0x02#8, 0x01#8)) = true := by decide
theorem test_shl_vy : goes (ready 0x812E#16 (v12 0x05#8 0xC0#8 other)) (fun t => v1f t = (0x80#8, 0x01#8)) = true := by decide
/-- T41-27. -/
theorem test_rnd : goes (ready 0xC30F#16 start 0xA7#8) (fun t => t.reg 3 = 0x07#8 ∧ t.reg 15 = 0x00#8) = true := by decide

/-- S11. -/
theorem test_ldI : goes (ready 0xA228#16 start) (fun t => t.i = 0x228#16) = true := by decide
/-- T42-2, T42-3. -/
theorem test_addI_noFlag : goes (ready 0xF11E#16 (((start.setI 0xFFF#16).setReg 1 1#8).setReg 15 0x33#8))
    (fun t => t.i = 0x1000#16 ∧ t.reg 15 = 0x33#8) = true := by decide
theorem test_addI_wraps : goes (ready 0xF11E#16 ((start.setI 0xFFFE#16).setReg 1 5#8)) (fun t => t.i = 3#16) = true := by decide
/-- T42-5. -/
theorem test_ldF_lowNibble : goes (ready 0xF229#16 (start.setReg 2 0x3A#8)) (fun t => t.i = 0x082#16) = true := by decide
/-- S6, T42-11. -/
theorem test_bcd : goes (ready 0xF033#16 ((start.setI 0x300#16).setReg 0 234#8))
    (fun t => t.readByte 0x300 = 2#8 ∧ t.readByte 0x301 = 3#8 ∧ t.readByte 0x302 = 4#8 ∧ t.i = 0x300#16) = true := by decide
theorem test_bcd_pastEnd : goes (ready 0xF033#16 ((start.setI 0xFFE#16).setReg 0 234#8))
    (fun t => t.readByte 4094 = 2#8 ∧ t.readByte 4095 = 3#8 ∧ report t = some (2, 0x1000, 0x200) ∧ t.pc = 0x202#16) = true := by decide
/-- T42-17 and T42-14: a program that overwrites its own word, and a store past the end. -/
theorem test_store_overProgram : goes (ready 0xF155#16 (((start.setI 0x200#16).setReg 0 0x12#8).setReg 1 0x08#8))
    (fun t => t.readWord 0x200 = 0x1208#16 ∧ t.pc = 0x202#16) = true := by decide
theorem test_store_pastEnd : goes (ready 0xF155#16 (((start.setI 0xFFF#16).setReg 0 7#8).setReg 1 9#8))
    (fun t => t.readByte 4095 = 7#8 ∧ report t = some (2, 0x1000, 0x200) ∧ t.pc = 0x202#16) = true := by decide
/-- T42-19, T42-15. -/
theorem test_load : goes (ready 0xF265#16 (((start.setI 0x300#16).setReg 3 0x99#8).writeBytes 0x300 [1, 2, 3]))
    (fun t => t.reg 0 = 1#8 ∧ t.reg 1 = 2#8 ∧ t.reg 2 = 3#8 ∧ t.reg 3 = 0x99#8 ∧ t.i = 0x300#16) = true := by decide
theorem test_load_pastEnd : goes (ready 0xF165#16 (((start.setI 0xFFF#16).setReg 1 9#8).writeByte 0xFFF 0x77#8))
    (fun t => t.reg 0 = 0x77#8 ∧ t.reg 1 = 9#8 ∧ report t = some (2, 0x1000, 0x200)) = true := by decide
/-- T42-16: the address reported is `I` itself where `I` is past memory. -/
theorem test_store_outside : goes (ready 0xF055#16 ((start.setI 0x1000#16).setReg 0 1#8))
    (fun t => report t = some (2, 0x1000, 0x200) ∧ t.mem = [(0x200, 0xF0#8), (0x201, 0x55#8)]) = true := by decide

/-- T43-1. -/
theorem test_cls : goes (ready 0x00E0#16 (start.setFb (start.fb.toggle 5 5))) (fun t => t.pixel 5 5 = false) = true := by decide
/-- S12: glyph 0 on an empty screen. -/
theorem test_draw_glyph : goes (ready 0xD005#16 (start.setI 0x050#16))
    (fun t => onIn [0, 1, 4, 5] t = [(0, 0), (1, 0), (2, 0), (3, 0), (0, 1), (3, 1), (0, 4), (1, 4), (2, 4), (3, 4)] ∧
      t.reg 15 = 0#8) = true := by decide
/-- T43-4: clipping at both edges. -/
theorem test_draw_clips : goes (ready 0xD013#16 ((((start.setI 0x300#16).setReg 0 62#8).setReg 1 30#8).writeBytes 0x300 [0xFF, 0xFF, 0xFF]))
    (fun t => onIn [0, 30, 31] t = [(62, 30), (63, 30), (62, 31), (63, 31)] ∧ t.reg 15 = 0#8) = true := by decide

/-- T44-1, T44-5. -/
theorem test_skp : goes (ready 0xE19E#16 ((start.setReg 1 5#8).setKey 5 true)) (fun t => t.pc = 0x204#16) = true := by decide
theorem test_skp_noKey : goes (ready 0xE19E#16 (start.setReg 1 0x10#8))
    (fun t => report t = some (4, 0x10, 0x200) ∧ t.pc = 0x202#16 ∧ t.status = .running) = true := by decide
/-- T44-4, T44-5. -/
theorem test_sknp : goes (ready 0xE1A1#16 (start.setReg 1 5#8)) (fun t => t.pc = 0x204#16) = true := by decide
theorem test_sknp_noKey : goes (ready 0xE1A1#16 (start.setReg 1 0x10#8)) (fun t => report t = some (4, 0x10, 0x200)) = true := by decide
/-- S8, T44-7. -/
theorem test_wait : goes (ready 0xF00A#16 start) (fun t => t.pc = 0x200#16 ∧ t.result = .ok) = true := by decide
theorem test_wait_lowest : goes (ready 0xF00A#16 ((start.setKey 7 true).setKey 3 true))
    (fun t => t.reg 0 = 3#8 ∧ t.pc = 0x202#16) = true := by decide
/-- T44-11, T44-9, T44-10. -/
theorem test_ldVxDt : goes (ready 0xF307#16 (start.setDt 0x3C#8)) (fun t => t.reg 3 = 0x3C#8 ∧ t.dt = 0x3C#8) = true := by decide
theorem test_ldDtVx : goes (ready 0xF215#16 (start.setReg 2 0x3C#8)) (fun t => t.dt = 0x3C#8 ∧ t.st = 0#8) = true := by decide
theorem test_ldStVx : goes (ready 0xF218#16 (start.setReg 2 0x3C#8)) (fun t => t.st = 0x3C#8 ∧ t.dt = 0#8) = true := by decide

/-- T44-12, T44-15: a tick in Halted, of a counter at 2 and one at 0. -/
theorem test_tick : goes { start with dt := 2#8, status := .halted, pending := [.tick] }
    (fun t => t.dt = 1#8 ∧ t.st = 0#8 ∧ t.status = .halted) = true := by decide
/-- T60-2, T60-3. -/
theorem test_cycle_refused : goes { start with status := .halted, errCause := 1#3, errAddr := 0x200#16, pending := [.cycle 0#8] }
    (fun t => t.result = .refusedHalted ∧ t.errCause = 1#3 ∧ t.pc = 0x200#16) = true := by decide
theorem test_reset : goes { start with status := .halted, errCause := 1#3, errAddr := 0x200#16, dt := 9#8, pending := [.reset] }
    (fun t => t.status = .running ∧ t.errCause = 0#3 ∧ t.errAddr = 0#16 ∧ t.dt = 0#8) = true := by decide
/-- R69. -/
theorem test_load_rom : goes { start with pending := [.load [0x60#8, 0xEA#8]] }
    (fun t => t.mem = [(0x200, 0x60#8), (0x201, 0xEA#8)] ∧ t.result = .ok) = true := by decide
/-- R280: the host reads a byte of the ROM and, in Halted, the report. -/
theorem test_observe : goes { start.writeByte 0x200 0x60#8 with pending := [.observe (.mem 0x200)] }
    (fun t => t.result = .value (.byte 0x60#8) ∧ t.pc = 0x200#16) = true := by decide
theorem test_observe_halted : goes { start with status := .halted, errCause := 1#3, pending := [.observe .errCause] }
    (fun t => t.result = .value (.code 1#3) ∧ t.status = .halted) = true := by decide
/-- The canonical form: writing the background byte back takes the entry off. -/
theorem test_memory_canonical : ((start.writeByte 0x300 5#8).writeByte 0x300 0#8).mem = [] ∧
    ((start.writeByte 0x050 5#8).writeByte 0x050 0xF0#8).mem = [] := by decide
/-- The host's entries: an operand word of zeros above the bits of a row, and the word where step fetches it. -/
theorem test_table_word : decodeTableWord 16 0xD005 = some (.drw 0 0 5) := by decide
theorem test_withFetchWord : goes (State.reset.withFetchWord 16 0x6A3B) (fun t => t.reg 10 = 0x3B#8 ∧ t.pc = 0x202#16) = true := by decide

/-! ### Witnesses: for every statement with hypotheses, concrete states and operands that meet them together -/

/-- `start` with a transaction scheduled. -/
def due (x : Transaction) : State := { start with pending := [x] }

/-- The halted core after an illegal word at 0x200. -/
def dead (l : List Transaction) : State :=
  { start with status := .halted, errCause := 1#3, errAddr := 0x200#16, pc := 0x202#16, condSeen := true, pending := l }

/-- ResetTransactionRestoresSpecValues: a reset is scheduled in Halted, and the step runs again. -/
theorem witness_reset : (dead [.reset]).pending = .reset :: [] ∧
    ∃ t, step (dead [.reset]) = .next t ∧ (dead [.reset]).status = .halted ∧ t.status = .running :=
  ⟨rfl, _, rfl, rfl, rfl⟩

/-- LoadWritesRomOrNothing: the longest ROM that fits, and one byte more. -/
theorem witness_load : (∃ rom : List Byte, (due (.load rom)).pending = .load rom :: [] ∧
      (due (.load rom)).MemCanonical ∧ rom.length = 3584) ∧
    ∃ rom : List Byte, (due (.load rom)).pending = .load rom :: [] ∧ (due (.load rom)).MemCanonical ∧ rom.length = 3585 :=
  ⟨⟨List.replicate 3584 1#8, rfl, nil_wf, List.length_replicate⟩, List.replicate 3585 1#8, rfl, nil_wf,
    List.length_replicate⟩

/-- TickCountsBothTimersDown. -/
theorem witness_tick : (due .tick).pending = .tick :: [] := rfl

/-- SetKeyWritesOneKey: the last key, and an observation. -/
theorem witness_setKey : (due (.setKey 15 true)).pending = .setKey 15 true :: [] ∧ (15 : KeyIdx) ≠ 0 ∧
    (due (.observe .fb)).pending = .observe .fb :: [] := by decide

/-- LoadAfterResetLaunches: the empty ROM after a Reset in Halted, and the longest ROM. -/
theorem witness_launch : ([] : List Byte).length ≤ 3584 ∧ (dead [.reset, .load []]).pending = .reset :: .load [] :: [] ∧
    ∃ rom : List Byte, rom.length ≤ 3584 ∧ 3583 < rom.length :=
  ⟨by decide, rfl, List.replicate 3584 1#8, List.length_replicate.le, List.length_replicate.ge⟩

/-- StepRunsDecodedInstruction, RandomWritesMaskedInput: at the first and at the last fetch address. -/
theorem witness_executes : (ready 0xC30F#16 start 0xA7#8).Executes 0xA7#8 (.rnd 3 0x0F#8) ∧
    (ready 0x6007#16 (start.setPc 0xFFE#16)).Executes 0x00#8 (.ldImm 0 0x07#8) :=
  ⟨⟨by decide, by decide, rfl⟩, by decide, by decide, rfl⟩

/-- The same for a Cycle the host issues of its own accord. -/
theorem witness_executes_free : (start.placeWord 0xC30F#16).Executes (Config.rnd 0) (.rnd 3 0x0F#8) :=
  ⟨⟨rfl, .inr ⟨rfl, rfl⟩⟩, by decide, rfl⟩

/-- FetchChecksProgramCounter: odd, below, above, and the two ends of the legal range. -/
theorem witness_fetch : (due (.cycle 0#8)).CycleNext 0#8 ∧ ¬ ((due (.cycle 0#8)).setPc 0x201#16).PcLegal ∧
    ¬ ((due (.cycle 0#8)).setPc 0x1FE#16).PcLegal ∧ ¬ ((due (.cycle 0#8)).setPc 0x1000#16).PcLegal := by decide
theorem witness_fetch_ends : ((ready 0x6007#16 start).CycleNext 0#8 ∧ (ready 0x6007#16 start).PcLegal ∧
      decodeWord (BitVec.ofNat 16 (((ready 0x6007#16 start).readByte 0x200).toNat * 256 +
        ((ready 0x6007#16 start).readByte 0x201).toNat)) = some (.ldImm 0 7#8)) ∧
    (ready 0x6007#16 (start.setPc 0xFFE#16)).CycleNext 0#8 ∧ (ready 0x6007#16 (start.setPc 0xFFE#16)).PcLegal := by decide

/-- IllegalWordHalts. -/
theorem witness_illegal : (ready 0x5011#16 start).CycleNext 0#8 ∧ (ready 0x5011#16 start).PcLegal ∧
    decode (ready 0x5011#16 start).fetchBytes = .error (.unmatchedWord 0x5011#16) :=
  ⟨by decide, by decide, rfl⟩

/-- HaltedRefusesOnlyCycles: a scheduled Cycle, no schedule, and another transaction. -/
theorem witness_halted : ((dead [.cycle 0#8]).status = .halted ∧ (dead [.cycle 0#8]).pending.head? = some (.cycle 0#8)) ∧
    ((dead []).status = .halted ∧ (dead []).pending = []) ∧
    (dead [.tick]).status = .halted ∧ (dead [.tick]).pending = .tick :: [] ∧ ∀ rnd, Transaction.tick ≠ .cycle rnd :=
  ⟨by decide, by decide, rfl, rfl, fun _ h => nomatch h⟩

/-- CycleReportsAtMostOneCondition: a Cycle that goes through and one that reports. -/
theorem witness_cycle : (∃ t, (ready 0x6007#16 start).CycleNext 0#8 ∧ step (ready 0x6007#16 start) = .next t ∧ t.result = .ok) ∧
    ∃ t, (ready 0x00EE#16 start).CycleNext 0#8 ∧ step (ready 0x00EE#16 start) = .next t ∧ t.condSeen = true :=
  ⟨⟨_, by decide, rfl, rfl⟩, _, by decide, rfl, rfl⟩

/-- SelfJumpChangesNothing: at both ends of the range of a fetch. -/
theorem witness_selfJump : ((ready 0x1200#16 start).CycleNext 0#8 ∧ (ready 0x1200#16 start).PcLegal ∧
      (ready 0x1200#16 start).FinishedAt 0x200#12) ∧
    (ready 0x1FFE#16 (start.setPc 0xFFE#16)).CycleNext 0#8 ∧ (ready 0x1FFE#16 (start.setPc 0xFFE#16)).PcLegal ∧
      (ready 0x1FFE#16 (start.setPc 0xFFE#16)).FinishedAt 0xFFE#12 := by decide

/-- CallPushesReturnAddress, ReturnPopsProgramCounter: the depths where the clauses meet. -/
theorem witness_stack : ({ start with sp := 0 } : State).sp.val < 16 ∧ ({ start with sp := 15 } : State).sp.val < 16 ∧
    ({ start with sp := 16 } : State).sp.val = 16 ∧ ({ start with sp := 1 } : State).sp.val = (0 : Fin 16).val + 1 ∧
    ({ start with sp := 16 } : State).sp.val = (15 : Fin 16).val + 1 ∧ ({ start with sp := 0 } : State).sp.val = 0 := by decide

/-- ReturnUndoesCall. -/
theorem witness_returnUndoesCall : ∃ t u : State, start.sp.val < 16 ∧ exec (.call 0x300#12) start = .next t ∧
    u.stack = t.stack ∧ u.sp = t.sp ∧ u.pc ≠ t.pc :=
  ⟨_, { start with stack := start.stack.set 0 0x200#16, sp := 1, pc := 0x400#16 }, by decide, rfl, rfl, rfl, by decide⟩

/-- SkipsAddTwoOnCondition: a condition that holds and one that does not. -/
theorem witness_skips : ∃ p ∈ [(Instr.seImm 3 0x44#8, true), (.sneImm 3 0x44#8, false)],
    p.2 = decide (((start.setReg 3 0x44#8).reg 3).toNat = (0x44#8).toNat) := by decide

/-- JumpWithOffsetAddsRegister, ShiftsWriteResultThenBitOut, ArithmeticLosesNothing, DrawTogglesSpritePixels: both
values of each parameter. -/
theorem witness_params : start.params.jumpOffsetReg = .v0 ∧ other.params.jumpOffsetReg = .vx ∧
    (start.params.shiftSource = .vx ∧ start.reg 1 = start.reg 1) ∧ (other.params.shiftSource = .vy ∧ other.reg 2 = other.reg 2) ∧
    start.params.drawYStartMod = .mod64 ∧ other.params.drawYStartMod = .mod32 := by decide

/-- OnlyTransfersMoveProgramCounter. -/
theorem witness_transfer : ∃ t, exec (.jp 0xABC#12) start = .next t ∧ t.pc ≠ start.pc := ⟨_, rfl, by decide⟩

/-- ArithmeticLosesNothing: every clause. -/
theorem witness_arithmetic : (1 : RegIdx) ≠ 15 ∧ (∃ t, exec (.addReg 1 2) start = .next t) ∧
    (∃ t, exec (.subReg 1 2) start = .next t) ∧ (∃ t, exec (.subnReg 1 2) start = .next t) ∧
    (∃ t, start.params.shiftSource = .vx ∧ exec (.shr 1 2) start = .next t) ∧
    (∃ t, start.params.shiftSource = .vx ∧ exec (.shl 1 2) start = .next t) ∧
    (∃ t, other.params.shiftSource = .vy ∧ exec (.shr 1 2) other = .next t) ∧
    ∃ t, other.params.shiftSource = .vy ∧ exec (.shl 1 2) other = .next t :=
  ⟨by decide, ⟨_, rfl⟩, ⟨_, rfl⟩, ⟨_, rfl⟩, ⟨_, rfl, rfl⟩, ⟨_, rfl, rfl⟩, ⟨_, rfl, rfl⟩, _, rfl, rfl⟩

/-- FlagsAreZeroOrOne, InstructionsWriteOnlyListedRegisters: an arithmetic form and a draw. -/
theorem witness_flags : (∃ t, exec (.addReg 15 1) start = .next t) ∧
    (∃ t, exec (.drw 0 0 0) (start.setI 0xFFFF#16) = .next t ∧ (0 : Fin 16).val = 0) ∧
    ∃ t, exec (.drw 0 0 1) (start.setI 0xFFF#16) = .next t ∧ (start.setI 0xFFF#16).i.toNat + (1 : Fin 16).val ≤ 4096 :=
  ⟨⟨_, rfl⟩, ⟨_, rfl, rfl⟩, _, rfl, by decide⟩

/-- OnlyRandomReadsRandomInput. -/
theorem witness_otherThanRandom : (∀ x nn, Instr.ldVxDt 3 ≠ .rnd x nn) ∧ ∃ t, exec (.ldVxDt 3) start = .next t :=
  ⟨fun _ _ h => (nomatch h), _, rfl⟩

/-- BcdStoresThreeDigits: the last three addresses, one more, and an `I` past memory. -/
theorem witness_bcd : (start.setI 0xFFD#16).MemCanonical ∧ (start.setI 0xFFD#16).i.toNat + 2 ≤ 4095 ∧
    4095 < (start.setI 0xFFE#16).i.toNat + 2 ∧ 4095 < (start.setI 0xFFFF#16).i.toNat + 2 ∧
    (start.setI 0xFFE#16).MemCanonical ∧ (start.setI 0xFFFF#16).MemCanonical :=
  ⟨nil_wf, by decide, by decide, by decide, nil_wf, nil_wf⟩

/-- StoreWritesRegistersToMemory, LoadReadsRegistersFromMemory: the last place that fits, one more, and past memory. -/
theorem witness_block : (start.setI 0xFFE#16).MemCanonical ∧ (start.setI 0xFFE#16).i.toNat + (1 : RegIdx).val ≤ 4095 ∧
    (start.setI 0xFFF#16).MemCanonical ∧ (start.setI 0xFFF#16).i.toNat + (0 : RegIdx).val ≤ 4095 ∧
    4095 < (start.setI 0xFFF#16).i.toNat + (1 : RegIdx).val ∧
    (start.setI 0x1000#16).MemCanonical ∧ 4095 < (start.setI 0x1000#16).i.toNat + (0 : RegIdx).val :=
  ⟨nil_wf, by decide, nil_wf, by decide, by decide, nil_wf, by decide⟩

/-- StoreThenLoadRoundTrips: the registers overwritten in between. -/
theorem witness_roundTrip : ∃ t u : State, (v12 1#8 2#8 (start.setI 0x300#16)).MemCanonical ∧
    (v12 1#8 2#8 (start.setI 0x300#16)).i.toNat + (2 : RegIdx).val ≤ 4095 ∧
    exec (.storeRegs 2) (v12 1#8 2#8 (start.setI 0x300#16)) = .next t ∧
    u.mem = t.mem ∧ u.params = t.params ∧ u.i = t.i ∧ u.reg 1 ≠ t.reg 1 :=
  ⟨_, (start.setI 0x300#16).writeBytes 0x300 [0#8, 1#8, 2#8], nil_wf, by decide, rfl, rfl, rfl, rfl, by decide⟩

/-- DrawTogglesSpritePixels, DrawTwiceRestoresPicture: the last row that can be read, one more, and no row at all. -/
theorem witness_draw : (start.setI 0xFFF#16).i.toNat + (1 : Fin 16).val ≤ 4096 ∧ (0 : Fin 16).val = 0 ∧
    0 < (2 : Fin 16).val ∧ 4096 < (start.setI 0xFFF#16).i.toNat + (2 : Fin 16).val ∧
    0 < (1 : Fin 16).val ∧ 4096 < (start.setI 0x1000#16).i.toNat + (1 : Fin 16).val := by decide

/-- DrawTwiceRestoresPicture: over an empty screen nothing goes off at the first draw. -/
theorem witness_drawTwice : (0 : RegIdx) ≠ 15 ∧ ∃ t, exec (.drw 0 0 5) (start.setI 0x050#16) = .next t ∧
    ∀ px py, (start.setI 0x050#16).pixel px py = true → t.pixel px py = true :=
  ⟨by decide, _, rfl, fun px py h => absurd (h.symm.trans (pixel_clear px py)) (by decide)⟩

/-- KeySkipsTestHeldKey: the highest key and the first number that names none. -/
theorem witness_keySkips : ((start.setReg 1 15#8).reg 1).toNat = (15 : KeyIdx).val ∧
    15 < ((start.setReg 1 16#8).reg 1).toNat ∧ Instr.sknp 1 ∈ [Instr.skp 1, Instr.sknp 1] := by decide

/-- WaitTakesLowestHeldKey: the highest key alone, and none. -/
theorem witness_wait : ((start.setKey 15 true).keyHeld 15 = true ∧ ∀ j, j < 15 → (start.setKey 15 true).keyHeld j = false) ∧
    ∀ k, start.keyHeld k = false := by decide

/-- EachStateHasItsWriters: every clause. -/
theorem witness_writers : (∃ t, exec .cls (start.setFb (start.fb.toggle 5 5)) = .next t ∧ t.pixel 5 5 = false ∧
      (start.setFb (start.fb.toggle 5 5)).pixel 5 5 = true) ∧
    (∃ t, exec (.ldI 0x228#12) start = .next t ∧ t.i ≠ start.i) ∧
    (∃ t, exec (.storeRegs 0) ((start.setI 0x300#16).setReg 0 7#8) = .next t ∧ t.mem ≠ start.mem) ∧
    (∃ t, exec (.call 0x300#12) start = .next t ∧ t.stack[0] ≠ start.stack[0] ∧ t.sp ≠ start.sp) ∧
    (∃ t, exec (.ldDtVx 2) (start.setReg 2 7#8) = .next t ∧ t.dt ≠ start.dt) ∧
    ∃ t, exec (.ldStVx 2) (start.setReg 2 7#8) = .next t ∧ t.st ≠ start.st :=
  ⟨⟨_, rfl, by decide, by decide⟩, ⟨_, rfl, by decide⟩, ⟨_, rfl, by decide⟩, ⟨_, rfl, by decide, by decide⟩,
    ⟨_, rfl, by decide⟩, _, rfl, by decide⟩

/-- ProgramCannotSeeReportsOrSound: two states that differ in everything a program cannot see. -/
theorem witness_unseen : ∃ s' t t' : State, start.seenByProgram = s'.seenByProgram ∧ s'.st ≠ start.st ∧
    s'.errCause ≠ start.errCause ∧ exec (.ldVxDt 3) start = .next t ∧ exec (.ldVxDt 3) s' = .next t' :=
  ⟨{ start with st := 9#8, errCause := 6#3, errVal := 1#16, errAddr := 0x200#16, condSeen := true }, _, _, rfl,
    by decide, by decide, rfl, rfl⟩

/-- HaltedKeepsItsReport: a Load, a SetKey and a Tick that change memory, a key and a timer. -/
theorem witness_haltedStep : (dead [.tick]).status = .halted ∧ (dead [.tick]).pending.head? ≠ some .reset ∧
    (∃ t, step (dead [.load [7#8]]) = .next t ∧ t.mem ≠ (dead []).mem) ∧
    (∃ t, step (dead [.setKey 15 true]) = .next t ∧ t.key ≠ (dead []).key) ∧
    ∃ t, step { dead [.tick] with dt := 1#8 } = .next t ∧ t.dt ≠ 1#8 :=
  ⟨by decide, by decide, ⟨_, rfl, by decide⟩, ⟨_, rfl, by decide⟩, _, rfl, by decide⟩

/-- ObservationAnswersState: every kind of state, at the ends of the ranges. -/
theorem witness_observe : ∀ what ∈ ([.v 0, .v 15, .i, .pc, .stack 0, .stack 15, .sp, .dt, .st, .fb, .key 0, .key 15,
    .mem 0, .mem 4095, .status, .errCause, .errVal, .errAddr] : List Observable),
    (due (.observe what)).pending = .observe what :: [] ∧ (dead [.observe what]).status = .halted := by decide

/-- A state inside a subroutine, with a byte of memory listed and a report, and a Cycle scheduled. -/
def inside : State :=
  { start with
    stack := start.stack.set 0 0x202#16
    sp := 1
    mem := [(0x300, 7#8)]
    errCause := 4#3
    errVal := 16#16
    errAddr := 0x200#16
    condSeen := true
    pending := [.cycle 0#8] }

/-- StepKeepsMemoryCanonical, StepKeepsReportsInAgreement, StepKeepsReturnAddressesLegal. -/
theorem witness_invariant : ∃ t, inside.Inv ∧ step inside = .next t := ⟨_, by decide, rfl⟩

/-- StepKeepsParametersAndMark: the mark set, and a schedule of one run. -/
theorem witness_mark : inside.condSeen = true ∧ inside.OneRun :=
  ⟨rfl, fun _ hx => by cases hx with
    | head => exact ⟨nofun, nofun⟩
    | tail _ h => cases h⟩

/-- CanonicalMemoriesReadingAlikeAreEqual. -/
theorem witness_canonical : Memory.wf 0x050 [(0x050, 0x00#8), (0x300, 7#8)] ∧
    ∀ a, a < 4096 → Memory.read 0x050 [(0x050, 0x00#8), (0x300, 7#8)] a = Memory.read 0x050 [(0x050, 0x00#8), (0x300, 7#8)] a :=
  ⟨by decide, fun _ _ => rfl⟩

/-- DecodeOfEncodeIsIdentity, EncodeOfDecodeIsIdentity, DecoderAgreesWithOpcodeTable. -/
theorem witness_encoding : WellFormed (.jpOffset 0xFFF#12 15) = true ∧ decodeWord 0xBFFF#16 = some (.jpOffset 0xFFF#12 15) ∧
    (Instr.jpOffset 0xFFF#12 15).row ∈ opcodeTable ∧ 0xBFFF#16 &&& 0xF000#16 = 0xB000#16 := by decide

end Sys2Proof.Tests
end

/-! PROOFS of the statements about the state (10_state.md): first what one instruction, one Cycle and one step can
do, said once each as an inversion; then the statements, each read off from them. -/

namespace Sys2Proof.Machine

/-- The parts of the state that an instruction and a Cycle keep unless they raise, and that a Load keeps. -/
structure FixedParts (s u : State) : Prop where
  key      : u.key = s.key
  status   : u.status = s.status
  errCause : u.errCause = s.errCause
  errVal   : u.errVal = s.errVal
  errAddr  : u.errAddr = s.errAddr
  params   : u.params = s.params
  pending  : u.pending = s.pending
  draws    : u.draws = s.draws
  condSeen : u.condSeen = s.condSeen

/-! ### What an instruction can do -/

/-- The skips (40_control_flow.md R124 to R127, 44_keypad_timers.md R211, R212). -/
abbrev IsSkip (i : Instr) : Prop :=
  (∃ x nn, i = .seImm x nn ∨ i = .sneImm x nn) ∨ (∃ x y, i = .seReg x y ∨ i = .sneReg x y) ∨
    ∃ x, i = .skp x ∨ i = .sknp x

/-- What the pseudocode of `i` may have done to `s` by the time it ends or raises: one constructor per kind of
write, with the instructions that make it. -/
inductive Effect (i : Instr) (s : State) : State → Prop
  | regs (v : Vector Byte 16) (hv : SameRegsBut (writtenRegs i) s { s with v := v }) : Effect i s { s with v := v }
  | screen (f : FrameBuffer) (v : Vector Byte 16) (hi : i = .cls ∨ ∃ x y n, i = .drw x y n)
      (hv : SameRegsBut (writtenRegs i) s { s with v := v }) : Effect i s { s with fb := f, v := v }
  | index (w : Word) (hi : (∃ nnn, i = .ldI nnn) ∨ ∃ x, i = .addIVx x ∨ i = .ldFVx x) : Effect i s (s.setI w)
  | memory (m : List Host.Cell) (hi : ∃ x, i = .ldBVx x ∨ i = .storeRegs x)
      (hm : s.MemCanonical → Memory.wf s.params.fontBase m) : Effect i s { s with mem := m }
  | jump (w : Word) (hi : (∃ nnn, i = .jp nnn) ∨ ∃ nnn x, i = .jpOffset nnn x) : Effect i s (s.setPc w)
  | skip (hi : IsSkip i) : Effect i s s.skip
  | wait (hi : ∃ x, i = .ldVxK x) : Effect i s s.stepBack
  | call (st : Vector Word 16) (n : Fin 17) (w : Word) (hi : ∃ nnn, i = .call nnn) :
      Effect i s { s with stack := st, sp := n, pc := w }
  | ret (n : Fin 17) (w : Word) (hi : i = .ret) : Effect i s { s with sp := n, pc := w }
  | delay (b : Byte) (hi : ∃ x, i = .ldDtVx x) : Effect i s (s.setDt b)
  | sound (b : Byte) (hi : ∃ x, i = .ldStVx x) : Effect i s (s.setSt b)

namespace Effect
variable {i : Instr} {s u : State}

theorem unchanged (i : Instr) (s : State) : Effect i s s := .regs s.v fun _ _ => rfl

theorem setReg {x : RegIdx} (hx : x ∈ writtenRegs i) (b : Byte) : Effect i s (s.setReg x b) :=
  .regs _ fun _ hr => reg_setReg_other s (ne_of_mem_of_not_mem hx hr).symm b

theorem setRegAndFlag {x : RegIdx} (hw : writtenRegs i = [x, vf]) (b : Byte) (f : Bool) :
    Effect i s (s.setRegAndFlag x b f) := by
  refine .regs _ fun r hr => ?_
  obtain ⟨hx, hvf⟩ : r ≠ x ∧ r ≠ vf := by simpa [hw] using hr
  exact (reg_setRegAndFlag s hvf b f).trans (if_neg hx)

theorem skipIf (hi : IsSkip i) (b : Bool) : Effect i s (s.skipIf b) := by
  cases b
  · exact unchanged i s
  · exact skip hi

theorem fixedParts (h : Effect i s u) : FixedParts s u := by
  cases h <;> exact ⟨rfl, rfl, rfl, rfl, rfl, rfl, rfl, rfl, rfl⟩

theorem rnd_eq (h : Effect i s u) : u.rnd = s.rnd := by cases h <;> rfl

/-- Only a raise changes the answer. -/
theorem result_eq (h : Effect i s u) : u.result = s.result := by cases h <;> rfl

theorem memCanonical (h : Effect i s u) (hs : s.MemCanonical) : u.MemCanonical := by
  cases h
  case memory m hi hm => exact hm hs
  all_goals exact hs

/-- Only the registers of the instruction's list change. -/
theorem sameRegsBut (h : Effect i s u) : SameRegsBut (writtenRegs i) s u := by
  cases h
  case regs v hv => exact hv
  case screen f v hi hv => exact hv
  all_goals exact fun _ _ => rfl

/-- The instructions that write `PC`, and where a skip or a wait leaves it. -/
theorem writes_pc (h : Effect i s u) (hpc : u.pc ≠ s.pc) :
    (∃ nnn, i = .jp nnn ∨ i = .call nnn) ∨ (∃ nnn x, i = .jpOffset nnn x) ∨ i = .ret ∨
      IsSkip i ∧ u.pc = s.pc + 2#16 ∨
      (∃ x, i = .ldVxK x) ∧ u.pc = s.pc - 2#16 := by
  cases h
  case jump w hi => exact hi.elim (fun ⟨nnn, h⟩ => .inl ⟨nnn, .inl h⟩) fun h => .inr (.inl h)
  case skip hi => exact .inr (.inr (.inr (.inl ⟨hi, rfl⟩)))
  case wait hi => exact .inr (.inr (.inr (.inr ⟨hi, rfl⟩)))
  case call st n w hi => exact .inl (hi.imp fun _ => .inr)
  case ret n w hi => exact .inr (.inr (.inl hi))
  all_goals exact absurd rfl hpc

/-- The instructions that write the other pieces of state. -/
theorem writers (h : Effect i s u) :
    (u.fb ≠ s.fb → i = .cls ∨ ∃ x y n, i = .drw x y n) ∧
    (u.i ≠ s.i → (∃ nnn, i = .ldI nnn) ∨ ∃ x, i = .addIVx x ∨ i = .ldFVx x) ∧
    (u.mem ≠ s.mem → ∃ x, i = .ldBVx x ∨ i = .storeRegs x) ∧
    (u.stack ≠ s.stack → ∃ nnn, i = .call nnn) ∧
    (u.sp ≠ s.sp → i = .ret ∨ ∃ nnn, i = .call nnn) ∧
    (u.dt ≠ s.dt → ∃ x, i = .ldDtVx x) ∧
    (u.st ≠ s.st → ∃ x, i = .ldStVx x) := by
  cases h with
  | regs | jump | skip | wait => exact ⟨absurd rfl, absurd rfl, absurd rfl, absurd rfl, absurd rfl, absurd rfl, absurd rfl⟩
  | screen f v hi => exact ⟨fun _ => hi, absurd rfl, absurd rfl, absurd rfl, absurd rfl, absurd rfl, absurd rfl⟩
  | index w hi => exact ⟨absurd rfl, fun _ => hi, absurd rfl, absurd rfl, absurd rfl, absurd rfl, absurd rfl⟩
  | memory m hi => exact ⟨absurd rfl, absurd rfl, fun _ => hi, absurd rfl, absurd rfl, absurd rfl, absurd rfl⟩
  | call st n w hi => exact ⟨absurd rfl, absurd rfl, absurd rfl, fun _ => hi, fun _ => .inr hi, absurd rfl, absurd rfl⟩
  | ret n w hi => exact ⟨absurd rfl, absurd rfl, absurd rfl, absurd rfl, fun _ => .inl hi, absurd rfl, absurd rfl⟩
  | delay b hi => exact ⟨absurd rfl, absurd rfl, absurd rfl, absurd rfl, absurd rfl, fun _ => hi, absurd rfl⟩
  | sound b hi => exact ⟨absurd rfl, absurd rfl, absurd rfl, absurd rfl, absurd rfl, absurd rfl, fun _ => hi⟩

end Effect

/-- How far the pseudocode of `i` comes from `s`: to its end, or to a raise that does not halt, before which `PC`
was not written. -/
inductive Runs (i : Instr) (s : State) : Progress → Prop
  | done {u : State} (hu : Effect i s u) : Runs i s (.done u)
  | raised {u : State} {c : Condition} (hu : Effect i s u) (hpc : u.pc = s.pc) (hc : ∀ r, c.status r = r) :
      Runs i s (.raised c u)

section
variable {i : Instr} {s t : State}

theorem storeBlock_runs (hi : ∃ x, i = .ldBVx x ∨ i = .storeRegs x) (bytes : List Byte) (a : Nat) :
    Runs i s (s.storeBlock a bytes) := by
  suffices ∀ m, (s.MemCanonical → Memory.wf s.params.fontBase m) →
      Runs i s (({ s with mem := m } : State).storeBlock a bytes) from this s.mem id
  induction bytes generalizing a with
  | nil => exact fun m hm => .done (.memory m hi hm)
  | cons b bs ih =>
    intro m hm
    rw [State.storeBlock]
    by_cases ha : 4095 < a
    · rw [memWrite_error b ha]
      exact .raised (.memory m hi hm) rfl fun _ => rfl
    · rw [memWrite_ok b (by omega)]
      exact ih (a + 1) _ fun hs => write_wf (hm hs) (by omega) b

theorem loadBlock_runs (rs : List RegIdx) (hrs : ∀ r ∈ rs, r ∈ writtenRegs i) (a : Nat) :
    Runs i s (s.loadBlock a rs) := by
  suffices ∀ v, SameRegsBut (writtenRegs i) s { s with v := v } →
      Runs i s (({ s with v := v } : State).loadBlock a rs) from this s.v fun _ _ => rfl
  induction rs generalizing a with
  | nil => exact fun v hv => .done (.regs v hv)
  | cons r rs ih =>
    intro v hv
    rw [State.loadBlock]
    by_cases ha : 4095 < a
    · rw [memRead_error ha]
      exact .raised (.regs v hv) rfl fun _ => rfl
    · rw [memRead_ok (by omega)]
      refine ih (fun q hq => hrs q (.tail r hq)) (a + 1) _ fun q hq => ?_
      exact (reg_setReg_other _ (ne_of_mem_of_not_mem (hrs r (.head rs)) hq).symm _).trans (hv q hq)

theorem execCall_runs (nnn : Imm12) (s : State) :
    ∃ p, execCall nnn s = .next p.state ∧ Runs (.call nnn) s p := by
  by_cases h : s.sp.val < 16
  · exact ⟨_, by rw [execCall, push_done s.pc _ h]; rfl, .done (.call _ _ _ ⟨nnn, rfl⟩)⟩
  · exact ⟨.raised _ s, by rw [execCall, push_raised s.pc _ (by omega)]; rfl,
      .raised (.unchanged _ s) rfl fun _ => rfl⟩

theorem popPc_runs (s : State) : Runs .ret s s.popPc := by
  by_cases h : 0 < s.sp.val
  · rw [popPc_done h]; exact .done (.ret _ _ rfl)
  · rw [popPc_raised (by omega)]; exact .raised (.unchanged _ s) rfl fun _ => rfl

theorem readBlock_error_status {a n : Nat} {c : Condition} (h : s.readBlock a n = .error c) (r : RunStatus) :
    c.status r = r := by
  rcases Nat.eq_zero_or_pos n with rfl | hn
  · cases h
  · by_cases hfit : a + n ≤ 4096
    · cases (readBlock_ok s hfit).symm.trans h
    · cases (readBlock_error s (by omega) hn).symm.trans h; rfl

theorem execDrw_runs (x y : RegIdx) (n : Fin 16) (s : State) :
    ∃ p, execDrw x y n s = .next p.state ∧ Runs (.drw x y n) s p := by
  cases h : s.readBlock s.baseAddr n.val with
  | error c => exact ⟨.raised c s, by rw [execDrw, h]; rfl, .raised (.unchanged _ s) rfl (readBlock_error_status h)⟩
  | ok rows =>
    refine ⟨.done _, by rw [execDrw, h]; rfl, .done (.screen _ _ (.inr ⟨x, y, n, rfl⟩) fun r hr => ?_)⟩
    have hvf : r ≠ vf := by simpa [writtenRegs] using hr
    exact (reg_setReg_other _ hvf _).trans (reg_setReg_other s hvf _)

/-- EX9E and EXA1 in one: they differ in the keys they skip for. -/
def keySkip (x : RegIdx) (skips : KeyIdx → Bool) (s : State) : Answer :=
  match keyOperand s.params.keyIndexPolicy (s.reg x) with
  | .error c => .next (s.raiseHere c)
  | .ok k => .next (s.skipIf (skips k))

theorem execSkp_eq (x : RegIdx) (s : State) : execSkp x s = keySkip x s.keyHeld s := rfl

theorem execSknp_eq (x : RegIdx) (s : State) : execSknp x s = keySkip x (fun k => !s.keyHeld k) s := rfl

theorem keySkip_runs {x : RegIdx} (hi : i = .skp x ∨ i = .sknp x) (skips : KeyIdx → Bool) (s : State) :
    ∃ p, keySkip x skips s = .next p.state ∧ Runs i s p := by
  by_cases h : (s.reg x).toNat < 16
  · exact ⟨.done _, by rw [keySkip, keyOperand_ok _ h]; rfl, .done (.skipIf (.inr (.inr ⟨x, hi⟩)) _)⟩
  · exact ⟨.raised _ s, by rw [keySkip, keyOperand_error _ (by omega)]; rfl,
      .raised (.unchanged i s) rfl fun _ => rfl⟩

theorem execLdVxK_runs (x : RegIdx) (s : State) :
    ∃ p, execLdVxK x s = .next p.state ∧ Runs (.ldVxK x) s p := by
  cases h : s.firstKey with
  | some k => exact ⟨.done _, by rw [execLdVxK, h]; rfl, .done (.setReg (.head _) _)⟩
  | none => exact ⟨.done _, by rw [execLdVxK, h]; rfl, .done (.wait ⟨x, rfl⟩)⟩

/-- Every instruction gives a next state, by one of its effects and at most one raise. -/
theorem exec_runs (i : Instr) (s : State) : ∃ p, exec i s = .next p.state ∧ Runs i s p := by
  cases i with
  | cls => exact ⟨.done _, rfl, .done (.screen _ s.v (.inl rfl) fun _ _ => rfl)⟩
  | ret => exact ⟨_, rfl, popPc_runs s⟩
  | jp nnn => exact ⟨.done _, rfl, .done (.jump _ (.inl ⟨nnn, rfl⟩))⟩
  | call nnn => exact execCall_runs nnn s
  | seImm x nn => exact ⟨.done _, rfl, .done (.skipIf (.inl ⟨x, nn, .inl rfl⟩) _)⟩
  | sneImm x nn => exact ⟨.done _, rfl, .done (.skipIf (.inl ⟨x, nn, .inr rfl⟩) _)⟩
  | seReg x y => exact ⟨.done _, rfl, .done (.skipIf (.inr (.inl ⟨x, y, .inl rfl⟩)) _)⟩
  | sneReg x y => exact ⟨.done _, rfl, .done (.skipIf (.inr (.inl ⟨x, y, .inr rfl⟩)) _)⟩
  | ldImm | addImm | ldReg | orReg | andReg | xorReg | rnd | ldVxDt =>
    exact ⟨.done _, rfl, .done (.setReg (.head _) _)⟩
  | addReg | subReg | shr | subnReg | shl => exact ⟨.done _, rfl, .done (.setRegAndFlag rfl _ _)⟩
  | ldI nnn => exact ⟨.done _, rfl, .done (.index _ (.inl ⟨nnn, rfl⟩))⟩
  | addIVx x => exact ⟨.done _, rfl, .done (.index _ (.inr ⟨x, .inl rfl⟩))⟩
  | ldFVx x => exact ⟨.done _, rfl, .done (.index _ (.inr ⟨x, .inr rfl⟩))⟩
  | jpOffset nnn x => exact ⟨.done _, rfl, .done (.jump _ (.inr ⟨nnn, x, rfl⟩))⟩
  | drw x y n => exact execDrw_runs x y n s
  | skp x => rw [exec, execSkp_eq]; exact keySkip_runs (.inl rfl) s.keyHeld s
  | sknp x => rw [exec, execSknp_eq]; exact keySkip_runs (.inr rfl) _ s
  | ldVxK x => exact execLdVxK_runs x s
  | ldDtVx x => exact ⟨.done _, rfl, .done (.delay _ ⟨x, rfl⟩)⟩
  | ldStVx x => exact ⟨.done _, rfl, .done (.sound _ ⟨x, rfl⟩)⟩
  | ldBVx x => exact ⟨_, rfl, storeBlock_runs ⟨x, .inl rfl⟩ _ _⟩
  | storeRegs x => exact ⟨_, rfl, storeBlock_runs ⟨x, .inr rfl⟩ _ _⟩
  | loadRegs x => exact ⟨_, rfl, loadBlock_runs _ (fun _ h => h) _⟩

/-- The inversion of `exec`: what a next state is. -/
theorem exec_inv (h : exec i s = .next t) : ∃ p, Runs i s p ∧ t = p.state := by
  obtain ⟨p, he, hp⟩ := exec_runs i s
  exact ⟨p, hp, Host.Outcome.next.inj (h.symm.trans he)⟩

end

/-! ### What a Cycle can do -/

theorem cause_range (c : Condition) : 1 ≤ c.cause.toNat ∧ c.cause.toNat ≤ 6 := by
  cases c <;> simp [Condition.cause]

/-- Halted is entered on code 1 only (60_exceptions.md R233). -/
theorem status_halted_iff (c : Condition) : c.status .running = .halted ↔ c.cause = 1#3 := by
  cases c <;> simp [Condition.status, Condition.cause]

/-- What holds of a Cycle of `s` up to its end or its raise. -/
structure MidCycle (s u : State) : Prop where
  fixed : FixedParts s u
  result : u.result = .ok
  memCanonical : s.MemCanonical → u.MemCanonical

theorem beginCycle_midCycle (s : State) (rnd : Byte) (w : Word) : MidCycle s ((s.beginCycle rnd).setPc w) :=
  ⟨⟨rfl, rfl, rfl, rfl, rfl, rfl, rfl, rfl, rfl⟩, rfl, id⟩

theorem Effect.midCycle {i : Instr} {s u : State} {rnd : Byte} (h : Effect i (s.beginCycle rnd).advance u) :
    MidCycle s u where
  fixed := { h.fixedParts with }
  result := h.result_eq
  memCanonical := h.memCanonical

/-- The inversion of a running Cycle: it answers `Ok`, or reports one condition with the address it fetched from. -/
theorem runningCycle_inv {s t : State} {rnd : Byte} (h : runningCycle rnd s = .next t) :
    ∃ u, MidCycle s u ∧ (t = u ∨ ∃ c, t = u.raise c s.pc) := by
  have hadv : ∀ u : State, u.pc = (s.beginCycle rnd).advance.pc → u.fetchAddr = s.pc := fun u hu => by
    rw [State.fetchAddr, hu]; exact BitVec.add_sub_cancel s.pc 2#16
  by_cases hpc : s.PcLegal
  · cases hd : decodeWord s.fetchWord with
    | none =>
      cases (runningCycle_illegalWord hpc hd).symm.trans h
      exact ⟨_, beginCycle_midCycle s rnd (s.pc + 2#16), .inr ⟨_, congrArg (State.raise _ _) (hadv _ rfl)⟩⟩
    | some i =>
      obtain ⟨p, hp, rfl⟩ := exec_inv ((runningCycle_decoded hpc hd).symm.trans h)
      cases hp with
      | done hu => exact ⟨_, hu.midCycle, .inl rfl⟩
      | @raised u c hu hupc =>
        exact ⟨u, hu.midCycle, .inr ⟨c, congrArg (u.raise c) (hadv u hupc)⟩⟩
  · cases (runningCycle_illegalPc hpc).symm.trans h
    exact ⟨_, beginCycle_midCycle s rnd s.pc, .inr ⟨_, rfl⟩⟩

/-! ### What a step can do -/

theorem cycle_running {s : State} (h : s.status = .running) (rnd : Byte) : cycle rnd s = runningCycle rnd s := by
  rw [cycle, h]

theorem cycle_halted {s : State} (h : s.status = .halted) (rnd : Byte) :
    cycle rnd s = .next { s with result := .refusedHalted } := by
  rw [cycle, h]

/-- The next states of a step, one constructor per transaction and two for a Cycle. -/
inductive Stepped (s : State) : State → Prop
  | reset (h : s.pending.head? = some .reset) : Stepped s s.afterTake.resetCore
  | load (bytes : List Byte) : Stepped s (s.afterTake.load bytes)
  | refused (h : s.status = .halted) : Stepped s { s.afterTake with result := .refusedHalted }
  | ran {t : State} (rnd : Byte) (h : s.status = .running) (ht : runningCycle rnd s.afterTake = .next t) : Stepped s t
  | tick : Stepped s s.afterTake.tick
  | setKey (k : KeyIdx) (p : Bool) : Stepped s (s.afterTake.setKey k p)
  | observe (what : Observable) : Stepped s (s.afterTake.observe what)

theorem head?_of_nextTransaction_reset {s : State} (h : nextTransaction s = .reset) :
    s.pending.head? = some .reset := by
  rw [nextTransaction] at h
  split at h
  · rename_i hp; rw [hp, h]; rfl
  · cases h

/-- The inversion of `step`. -/
theorem step_inv {s t : State} (h : step s = .next t) : Stepped s t := by
  rw [step, takeTransaction_eq] at h
  cases hx : nextTransaction s with rw [hx] at h
  | reset => cases h; exact .reset (head?_of_nextTransaction_reset hx)
  | load bytes => cases h; exact .load bytes
  | cycle rnd =>
    cases hst : s.status with
    | running => exact .ran rnd hst ((cycle_running (s := s.afterTake) hst rnd).symm.trans h)
    | halted => cases (cycle_halted (s := s.afterTake) hst rnd).symm.trans h; exact .refused hst
  | tick => cases h; exact .tick
  | setKey k p => cases h; exact .setKey k p
  | observe what => cases h; exact .observe what

/-- A Load writes memory and its answer only. -/
theorem load_fixedParts (s : State) (bytes : List Byte) : FixedParts s (s.load bytes) := by
  rcases Nat.lt_or_ge 3584 bytes.length with h | h
  · rw [load_tooLarge s h]; exact ⟨rfl, rfl, rfl, rfl, rfl, rfl, rfl, rfl, rfl⟩
  · rw [load_fits s h]; exact ⟨rfl, rfl, rfl, rfl, rfl, rfl, rfl, rfl, rfl⟩

theorem load_memCanonical {s : State} (hs : s.MemCanonical) (bytes : List Byte) : (s.load bytes).MemCanonical := by
  rcases Nat.lt_or_ge 3584 bytes.length with h | h
  · rw [load_tooLarge s h]; exact hs
  · have hw := writeBytes_wf bytes hs (a := 0x200) (by omega)
    rw [writeBytes_eq] at hw
    rw [load_fits s h]; exact hw

/-- Every step keeps the parameters and a set mark, and takes the head off the schedule. -/
theorem Stepped.keeps {s t : State} (h : Stepped s t) :
    t.params = s.params ∧ (s.condSeen = true → t.condSeen = true) ∧ t.pending = s.pending.tail := by
  cases h with
  | load bytes =>
    have hl := load_fixedParts s.afterTake bytes
    exact ⟨hl.params, hl.condSeen.trans, hl.pending⟩
  | ran rnd _ ht =>
    obtain ⟨u, hu, rfl | ⟨c, rfl⟩⟩ := runningCycle_inv ht
    · exact ⟨hu.fixed.params, hu.fixed.condSeen.trans, hu.fixed.pending⟩
    · exact ⟨hu.fixed.params, fun _ => rfl, hu.fixed.pending⟩
  | reset | refused | tick | setKey | observe => exact ⟨rfl, id, rfl⟩

/-! ### Reset -/

section
variable (base : FontBase)

theorem fontData_length : fontData.length = 80 := rfl

theorem background_font {k : Nat} (hk : k < 80) :
    Memory.background base (base.val + k) = specFont.getD k 0x00#8 := by
  have hb := base.isLt
  rw [Memory.background, if_neg (by simp only [Config.programStart]; omega), if_pos (by omega), Nat.add_sub_cancel_left]
  rfl

theorem background_outside {a : Nat} (ha : a < base.val ∨ base.val + 80 ≤ a) : Memory.background base a = 0x00#8 := by
  rw [Memory.background]
  split
  · rfl
  · split
    · exact List.getD_eq_default _ _ (by rw [fontData_length]; omega)
    · rfl

end

/-- Every piece of state the spec gives stands at its value of 10_state.md R35, under any parameters. -/
theorem resetWith_atResetValues (p : Params) : (State.resetWith p).AtResetValues specFont := by
  refine ⟨⟨fun r => Vector.getElem_replicate _, rfl, rfl, rfl, fun k => Vector.getElem_replicate _, rfl, rfl,
    pixel_clear, fun k => Vector.getElem_replicate _, rfl, rfl, rfl, rfl⟩, ?_, nofun, ?_⟩
  · exact fun k hk => background_font p.fontBase hk
  · exact fun a ha _ => background_outside p.fontBase ha

/-! ### What a program cannot see -/

/-- An answer, its next state as a program sees it. -/
def seenAnswer : Answer → Answer
  | .next t => .next t.seenByProgram
  | .fault f => .fault f
  | .refused r => .refused r

section
variable (s : State)

theorem skipIf_seenByProgram (b : Bool) :
    (s.seenByProgram.skipIf b).seenByProgram = (s.skipIf b).seenByProgram := by
  cases b <;> rfl

theorem popPc_seenByProgram : s.seenByProgram.popPc.state.seenByProgram = s.popPc.state.seenByProgram := by
  by_cases h : 0 < s.sp.val
  · rw [popPc_done h, popPc_done (s := s.seenByProgram) h]; rfl
  · have h0 : s.sp.val = 0 := by omega
    rw [popPc_raised h0, popPc_raised (s := s.seenByProgram) h0]; rfl

theorem execCall_seenByProgram (nnn : Imm12) :
    seenAnswer (execCall nnn s.seenByProgram) = seenAnswer (execCall nnn s) := by
  by_cases h : s.sp.val < 16
  · rw [execCall, execCall, push_done s.pc _ h, push_done (s := s.seenByProgram) _ _ h]; rfl
  · have h16 : s.sp.val = 16 := by omega
    rw [execCall, execCall, push_raised s.pc _ h16, push_raised (s := s.seenByProgram) _ _ h16]; rfl

theorem readBlock_seenByProgram (a n : Nat) : s.seenByProgram.readBlock a n = s.readBlock a n := by
  induction n generalizing a with
  | zero => rfl
  | succ n ih => rw [State.readBlock, State.readBlock, ih]; rfl

theorem storeBlock_seenByProgram (bytes : List Byte) (a : Nat) :
    (s.seenByProgram.storeBlock a bytes).state.seenByProgram = (s.storeBlock a bytes).state.seenByProgram := by
  induction bytes generalizing s a with
  | nil => rfl
  | cons b bs ih =>
    rw [State.storeBlock, State.storeBlock]
    by_cases ha : 4095 < a
    · rw [memWrite_error b ha, memWrite_error b ha]; rfl
    · rw [memWrite_ok b (by omega), memWrite_ok b (by omega)]
      exact ih (s.writeByte a b) (a + 1)

theorem loadBlock_seenByProgram (rs : List RegIdx) (a : Nat) :
    (s.seenByProgram.loadBlock a rs).state.seenByProgram = (s.loadBlock a rs).state.seenByProgram := by
  induction rs generalizing s a with
  | nil => rfl
  | cons r rs ih =>
    rw [State.loadBlock, State.loadBlock]
    by_cases ha : 4095 < a
    · rw [memRead_error ha, memRead_error ha]; rfl
    · rw [memRead_ok (by omega), memRead_ok (by omega)]
      exact ih (s.setReg r (s.readByte a)) (a + 1)

theorem execDrw_seenByProgram (x y : RegIdx) (n : Fin 16) :
    seenAnswer (execDrw x y n s.seenByProgram) = seenAnswer (execDrw x y n s) := by
  have hr : s.seenByProgram.readBlock s.seenByProgram.baseAddr n.val = s.readBlock s.baseAddr n.val :=
    readBlock_seenByProgram s _ _
  rw [execDrw, execDrw, hr]
  cases s.readBlock s.baseAddr n.val <;> rfl

theorem keySkip_seenByProgram (x : RegIdx) (skips : KeyIdx → Bool) :
    seenAnswer (keySkip x skips s.seenByProgram) = seenAnswer (keySkip x skips s) := by
  have hk : keyOperand s.seenByProgram.params.keyIndexPolicy (s.seenByProgram.reg x) =
      keyOperand s.params.keyIndexPolicy (s.reg x) := rfl
  rw [keySkip, keySkip, hk]
  cases keyOperand s.params.keyIndexPolicy (s.reg x) with
  | error c => rfl
  | ok k => exact congrArg Host.Outcome.next (skipIf_seenByProgram s (skips k))

theorem execLdVxK_seenByProgram (x : RegIdx) :
    seenAnswer (execLdVxK x s.seenByProgram) = seenAnswer (execLdVxK x s) := by
  have hf : s.seenByProgram.firstKey = s.firstKey := rfl
  rw [execLdVxK, execLdVxK, hf]
  cases s.firstKey <;> rfl

/-- What a program sees of the next state depends only on what it sees of the state. -/
theorem exec_seenByProgram (i : Instr) : seenAnswer (exec i s.seenByProgram) = seenAnswer (exec i s) := by
  cases i with
  | ret => exact congrArg Host.Outcome.next (popPc_seenByProgram s)
  | call nnn => exact execCall_seenByProgram s nnn
  | seImm | sneImm | seReg | sneReg => exact congrArg Host.Outcome.next (skipIf_seenByProgram s _)
  | drw x y n => exact execDrw_seenByProgram s x y n
  | skp x => exact keySkip_seenByProgram s x s.keyHeld
  | sknp x => exact keySkip_seenByProgram s x fun k => !s.keyHeld k
  | ldVxK x => exact execLdVxK_seenByProgram s x
  | ldBVx | storeRegs => exact congrArg Host.Outcome.next (storeBlock_seenByProgram s _ _)
  | loadRegs => exact congrArg Host.Outcome.next (loadBlock_seenByProgram s _ _)
  | cls | jp | ldImm | addImm | ldReg | orReg | andReg | xorReg | addReg | subReg | shr | subnReg | shl | ldI
  | jpOffset | rnd | ldVxDt | ldDtVx | ldStVx | addIVx | ldFVx => rfl

end

/-! ### Flags -/

theorem flagByte_zero_or_one (f : Bool) : flagByte f = 0x00#8 ∨ flagByte f = 0x01#8 := by
  cases f
  · exact .inl rfl
  · exact .inr rfl

/-- A DXYN whose rows can all be read leaves a flag in VF. -/
theorem execDrw_flag {x y : RegIdx} {n : Fin 16} {s t : State} (h : execDrw x y n s = .next t)
    (hn : n.val = 0 ∨ s.i.toNat + n.val ≤ 4096) : ∃ f, t.reg vf = flagByte f := by
  obtain ⟨rows, hrows⟩ : ∃ rows, s.readBlock s.baseAddr n.val = .ok rows :=
    hn.elim (fun h0 => ⟨[], by rw [h0]; rfl⟩) fun hfit => ⟨_, readBlock_ok s hfit⟩
  rw [execDrw, hrows] at h
  cases h
  exact ⟨_, reg_setReg_same _ vf _⟩

/-! ### The keypad -/

theorem keyHeld_setKey_same (s : State) (k : KeyIdx) (p : Bool) : (s.setKey k p).keyHeld k = p := by
  simp [State.keyHeld]

theorem keyHeld_setKey_other (s : State) {k j : KeyIdx} (h : j ≠ k) (p : Bool) :
    (s.setKey k p).keyHeld j = s.keyHeld j := by
  have : k.val ≠ j.val := fun e => h (Fin.ext e.symm)
  simp [State.keyHeld, this]

/-! ### Canonical memories -/

/-- A canonical memory lists no cell that another one reading alike does not list. -/
theorem subset_of_read_eq {base : FontBase} {m m' : List Host.Cell} (hm : Memory.wf base m) (hm' : Memory.wf base m')
    (hread : ∀ a, a < 4096 → Memory.read base m a = Memory.read base m' a) : m ⊆ m' := by
  intro c hc
  obtain ⟨hr, hb⟩ := (mem_iff_read hm c).1 hc
  exact (mem_iff_read hm' c).2 ⟨(hread c.1 (hm.2 c hc).1).symm.trans hr, hb⟩

/-! ### The statements -/

/-- Settles O48: memory is written only by a Load, by FX33 and FX55, and each write keeps the canonical form; Reset
empties the list. -/
theorem stepKeepsMemoryCanonical : Obligations.StepKeepsMemoryCanonical := by
  intro s t hs h
  cases step_inv h with
  | reset => exact nil_wf
  | load bytes => exact load_memCanonical (s := s.afterTake) hs bytes
  | ran rnd _ ht =>
    obtain ⟨u, hu, rfl | ⟨c, rfl⟩⟩ := runningCycle_inv ht
    · exact hu.memCanonical hs
    · exact hu.memCanonical hs
  | refused | tick | setKey | observe => exact hs

/-- Settles O2: `resetCore` has the reset values under the parameters it keeps, and every other transaction keeps a
Halted core Halted. -/
theorem resetTransactionRestoresSpecValues : Obligations.ResetTransactionRestoresSpecValues := by
  refine ⟨fun s rest hp => ⟨_, step_of_pending hp, resetWith_atResetValues s.params, rfl, rfl, rfl, rfl⟩, ?_⟩
  intro s t h hs ht
  cases step_inv h with
  | reset hreset => exact hreset
  | load bytes =>
    have hl : (s.afterTake.load bytes).status = s.status := (load_fixedParts s.afterTake bytes).status
    cases hs.symm.trans (hl.symm.trans ht)
  | ran rnd hrun => cases hs.symm.trans hrun
  | refused | tick | setKey | observe => cases hs.symm.trans ht

/-- Settles O12, by the inversion of a running Cycle. -/
theorem cycleReportsAtMostOneCondition : Obligations.CycleReportsAtMostOneCondition := by
  intro s t rnd hc h
  rw [step_of_cycleNext hc] at h
  obtain ⟨u, hu, ht⟩ := runningCycle_inv h
  have hstatus : u.status = .running := hu.fixed.status.trans hc.1
  obtain rfl | ⟨c, rfl⟩ := ht
  · exact .inl ⟨hu.result, hu.fixed.errCause, hu.fixed.errVal, hu.fixed.errAddr, hu.fixed.condSeen, hstatus⟩
  · obtain ⟨h1, h6⟩ := cause_range c
    refine .inr ⟨c.cause, c.val, h1, h6, ⟨rfl, rfl, rfl, rfl, rfl⟩, ?_⟩
    rw [raise_status, hstatus]
    exact status_halted_iff c

/-- Settles O20: a raise comes before any write to `PC`, so a moved `PC` is the effect of an instruction that ended. -/
theorem onlyTransfersMoveProgramCounter : Obligations.OnlyTransfersMoveProgramCounter := by
  intro i s t h hpc
  obtain ⟨p, hp, rfl⟩ := exec_inv h
  cases hp with
  | done hu =>
    exact ⟨hu.fixedParts.errCause, hu.fixedParts.condSeen, hu.result_eq, hu.writes_pc hpc⟩
  | raised hu hupc => exact absurd hupc hpc

/-- Settles O27: the flag is the last write of each of these instructions. -/
theorem flagsAreZeroOrOne : Obligations.FlagsAreZeroOrOne := by
  intro i s t h hi
  obtain ⟨f, hf⟩ : ∃ f, t.reg vf = flagByte f := by
    rcases hi with ⟨x, y, rfl | rfl | rfl | rfl | rfl⟩ | ⟨x, y, n, rfl, hn⟩
    case inr => exact execDrw_flag h hn
    all_goals
      cases h
      exact ⟨_, reg_setRegAndFlag_vf s x _ _⟩
  exact hf ▸ flagByte_zero_or_one f

/-- Settles O28, by the inversion of `exec`; a raise writes no register. -/
theorem instructionsWriteOnlyListedRegisters : Obligations.InstructionsWriteOnlyListedRegisters := by
  intro i s t h
  obtain ⟨p, hp, rfl⟩ := exec_inv h
  cases hp with
  | done hu => exact hu.sameRegsBut
  | raised hu => exact hu.sameRegsBut

/-- Settles O43, by the inversion of `exec`: a raise in the execute step changes none of these, `STATUS` included. -/
theorem eachStateHasItsWriters : Obligations.EachStateHasItsWriters := by
  intro i s t h
  obtain ⟨p, hp, rfl⟩ := exec_inv h
  cases hp with
  | done hu =>
    obtain ⟨hfb, hi, hmem, hstack, hsp, hdt, hst⟩ := hu.writers
    have hf := hu.fixedParts
    exact ⟨hfb, hi, hmem, hstack, hsp, hdt, hst, hf.key, hf.status, hf.params, hf.pending, hu.rnd_eq, hf.draws⟩
  | raised hu _ hc =>
    obtain ⟨hfb, hi, hmem, hstack, hsp, hdt, hst⟩ := hu.writers
    have hf := hu.fixedParts
    exact ⟨hfb, hi, hmem, hstack, hsp, hdt, hst, hf.key, (hc _).trans hf.status, hf.params, hf.pending, hu.rnd_eq,
      hf.draws⟩

/-- Settles O44: both next states are seen as the next state of what is seen of the states, and that is the same. -/
theorem programCannotSeeReportsOrSound : Obligations.ProgramCannotSeeReportsOrSound := by
  intro i s s' t t' hs h h'
  have key : Host.Outcome.next t.seenByProgram = (Host.Outcome.next t'.seenByProgram : Answer) := by
    calc seenAnswer (.next t)
      _ = seenAnswer (exec i s) := by rw [h]
      _ = seenAnswer (exec i s.seenByProgram) := (exec_seenByProgram s i).symm
      _ = seenAnswer (exec i s'.seenByProgram) := by rw [hs]
      _ = seenAnswer (exec i s') := exec_seenByProgram s' i
      _ = seenAnswer (.next t') := by rw [h']
  exact Host.Outcome.next.inj key

/-- Settles O45, by the inversion of `step`. -/
theorem stepKeepsParametersAndMark : Obligations.StepKeepsParametersAndMark := by
  intro s t h
  obtain ⟨hparams, hmark, hpending⟩ := (step_inv h).keeps
  exact ⟨hparams, hmark, hpending, fun hrun x hx => hrun x (List.mem_of_mem_tail (hpending ▸ hx))⟩

/-- Settles O51: a canonical memory lists exactly the addresses that do not read as the background, in rising order. -/
theorem canonicalMemoriesReadingAlikeAreEqual : Obligations.CanonicalMemoriesReadingAlikeAreEqual := by
  intro base m m' hm hm' hread
  have : Std.Irrefl fun c d : Host.Cell => c.1 < d.1 := ⟨fun c => Nat.lt_irrefl c.1⟩
  have : Std.Antisymm fun c d : Host.Cell => c.1 < d.1 := ⟨fun _ _ h h' => absurd h' (Nat.lt_asymm h)⟩
  exact List.Subset.antisymm_of_pairwise hm.1 hm'.1 (subset_of_read_eq hm hm' hread)
    (subset_of_read_eq hm' hm fun a ha => (hread a ha).symm)

/-- Settles O1. -/
theorem resetStateHoldsSpecValues : Obligations.ResetStateHoldsSpecValues := resetWith_atResetValues _

/-- Settles O5. -/
theorem setKeyWritesOneKey : Obligations.SetKeyWritesOneKey := by
  refine ⟨fun s k p rest hp => ⟨_, step_of_pending hp, ?_, fun j hj => ?_, fun _ => rfl, rfl⟩,
    fun s what rest hp => ⟨_, step_of_pending hp, fun _ => rfl, rfl⟩⟩
  · exact keyHeld_setKey_same _ k p
  · exact keyHeld_setKey_other _ hj p

/-- Settles O47: the list is empty, the latches are 0 and the stack holds nothing. -/
theorem resetStateMeetsInvariant : Obligations.ResetStateMeetsInvariant := by
  exact ⟨nil_wf, ⟨by decide, nofun, fun _ => ⟨rfl, rfl⟩, fun h => absurd rfl h⟩, nofun⟩

end Sys2Proof.Machine

/-! PROOFS of the statements about memory (20_memory.md): the Load transaction and the fetch. -/

namespace Sys2Proof.Machine

/-! ### The bytes after a Load -/

/-- A ROM that fits is read back as the Load's loop wrote it. -/
theorem load_readByte (s : State) {rom : List Byte} (h : rom.length ≤ 3584) (a : Nat) :
    (s.load rom).readByte a = (s.writeBytes 0x200 rom).readByte a := by
  rw [load_fits s h, writeBytes_eq rom s 0x200]
  rfl

theorem load_readByte_rom {s : State} (hs : s.MemCanonical) {rom : List Byte} (h : rom.length ≤ 3584) {k : Nat}
    (hk : k < rom.length) : (s.load rom).readByte (0x200 + k) = rom.getD k 0x00#8 := by
  rw [load_readByte s h, writeBytes_readByte rom hs.1 hk, List.getD_eq_getElem rom _ hk]

theorem load_sameMemoryOutside (s : State) {rom : List Byte} (h : rom.length ≤ 3584) :
    SameMemoryOutside 0x200 rom.length s (s.load rom) := fun a ha => by
  rw [load_readByte s h, writeBytes_readByte_outside rom s ha]

/-! ### The start of the execute step -/

/-- The Cycle's own bookkeeping and the advance lead to the state in which the execute step starts. -/
theorem beginCycle_advance_eq_executing (s : State) (rnd : Byte) :
    (s.afterTake.beginCycle rnd).advance = s.executing rnd := rfl

/-! ### The statements -/

/-- Settles O3: the Load's loop writes the span from 0x200, after the check of the whole length. -/
theorem loadWritesRomOrNothing : Obligations.LoadWritesRomOrNothing := by
  intro s rom rest hp hs
  have hstep : step s = .next ({ s with pending := rest }.load rom) := step_of_pending hp
  refine ⟨fun hfits => ⟨_, hstep, fun k hk => ?_, ?_, ?_⟩, fun hlong => ?_⟩
  · exact load_readByte_rom (s := { s with pending := rest }) hs hfits hk
  · exact load_sameMemoryOutside { s with pending := rest } hfits
  · rw [load_fits _ hfits]
  · rw [hstep, load_tooLarge _ hlong]

/-- Settles O8: the step is the running Cycle, which reports an illegal `PC` before the advance, and else runs the
decoded word after it. -/
theorem fetchChecksProgramCounter : Obligations.FetchChecksProgramCounter := by
  intro s rnd hc
  rw [step_of_cycleNext hc]
  refine ⟨fun hpc => ⟨_, runningCycle_illegalPc (s := s.afterTake) hpc, ⟨rfl, rfl, rfl, rfl, rfl⟩, rfl⟩, ?_⟩
  intro hpc i hd
  rw [runningCycle_decoded (s := s.afterTake) hpc hd, beginCycle_advance_eq_executing]

end Sys2Proof.Machine

/-! PROOFS of the statements about the encoding (30_encoding.md): the fields of a word composed by a format, the formats
of a word's own fields, and the fields under a mask; then decoder and encoder, one case per format. -/

namespace Sys2Proof

section
variable {op m : Word} {code : Nat} {i : Instr}

/-! ### The fields of a format -/

section
variable (h : code < 16) (x y : RegIdx) (n : Fin 16) (nn : Byte) (nnn : Imm12)
include h

@[simp] theorem fieldCode_formatA : fieldCode (formatA code nnn) = code :=
  (fields_of_formatA (toNat_formatA h nnn)).1
@[simp] theorem fieldNNN_formatA : fieldNNN (formatA code nnn) = nnn :=
  (fields_of_formatA (toNat_formatA h nnn)).2.1
@[simp] theorem fieldX_formatA : fieldX (formatA code nnn) = topNibble nnn :=
  (fields_of_formatA (toNat_formatA h nnn)).2.2

@[simp] theorem fieldCode_formatI : fieldCode (formatI code x nn) = code :=
  (fields_of_formatI (toNat_formatI h x nn)).1
@[simp] theorem fieldX_formatI : fieldX (formatI code x nn) = x :=
  (fields_of_formatI (toNat_formatI h x nn)).2.1
@[simp] theorem fieldNN_formatI : fieldNN (formatI code x nn) = nn :=
  (fields_of_formatI (toNat_formatI h x nn)).2.2

@[simp] theorem fieldCode_formatD : fieldCode (formatD code x y n) = code :=
  (fields_of_formatD (toNat_formatD h x y n)).1
@[simp] theorem fieldX_formatD : fieldX (formatD code x y n) = x :=
  (fields_of_formatD (toNat_formatD h x y n)).2.1
@[simp] theorem fieldY_formatD : fieldY (formatD code x y n) = y :=
  (fields_of_formatD (toNat_formatD h x y n)).2.2.1
@[simp] theorem fieldN_formatD : fieldN (formatD code x y n) = n :=
  (fields_of_formatD (toNat_formatD h x y n)).2.2.2

end

/-! ### The formats of a word's fields -/

theorem formatA_fields (hc : fieldCode op = code) : formatA code (fieldNNN op) = op :=
  BitVec.eq_of_toNat_eq (by rw [← hc, toNat_formatA (by rw [fieldCode]; omega), ← (word_of_fields op).1])

theorem formatI_fields {nn : Byte} (hc : fieldCode op = code) (hnn : (fieldNN op).toNat = nn.toNat) :
    formatI code (fieldX op) nn = op :=
  BitVec.eq_of_toNat_eq (by
    rw [← hc, toNat_formatI (by rw [fieldCode]; omega), ← hnn, ← (word_of_fields op).2.1])

theorem formatD_fields {n : Fin 16} (hc : fieldCode op = code) (hn : (fieldN op).val = n.val) :
    formatD code (fieldX op) (fieldY op) n = op :=
  BitVec.eq_of_toNat_eq (by
    rw [← hc, toNat_formatD (by rw [fieldCode]; omega), ← hn, ← (word_of_fields op).2.2])

theorem fieldX_eq_topNibble (op : Word) : fieldX op = topNibble (fieldNNN op) :=
  (fields_of_formatA (word_of_fields op).1).2.2

/-! ### Decoding what was encoded -/

/-- The format gives back its fields, and the tree branches on the code and on the function they hold. -/
theorem decodeWord_encode (h : WellFormed i = true) : decodeWord (encode i) = some i := by
  cases i with
  | cls | ret => rfl
  | jp nnn | call nnn | ldI nnn => simp [encode, decodeWord]
  | jpOffset nnn x =>
    have hx : x = topNibble nnn := of_decide_eq_true h
    simp [encode, decodeWord, hx]
  | seImm x nn | sneImm x nn | ldImm x nn | addImm x nn | rnd x nn => simp [encode, decodeWord]
  | seReg x y | sneReg x y | drw x y n => simp [encode, decodeWord]
  | ldReg x y | orReg x y | andReg x y | xorReg x y | addReg x y | subReg x y | shr x y | subnReg x y | shl x y =>
    simp [encode, decodeWord, decodeFamily8]
  | skp x | sknp x => simp [encode, decodeWord, decodeFamilyE]
  | ldVxDt x | ldVxK x | ldDtVx x | ldStVx x | addIVx x | ldFVx x | ldBVx x | storeRegs x | loadRegs x =>
    simp [encode, decodeWord, decodeFamilyF]

theorem decode_bytes_of_decodeWord (h : decodeWord op = some i) (rest : List Byte) :
    decode (highByte op :: lowByte op :: rest) = .ok (i, rest) := by
  simp [decode, h]

/-- A rejected pair of bytes is a word that does not decode. -/
theorem unmatchedWord_of_decode {hi lo : Byte} {rest : List Byte}
    (h : decode (hi :: lo :: rest) = .error (.unmatchedWord op)) :
    wordOfBytes hi lo = op ∧ decodeWord op = none := by
  cases hd : decodeWord (wordOfBytes hi lo) with
  | some i => simp [decode, hd] at h
  | none =>
    simp only [decode, hd, Except.error.injEq, DecodeReject.unmatchedWord.injEq] at h
    exact ⟨h, h ▸ hd⟩

/-! ### Encoding what was decoded -/

theorem fieldCode_lt (op : Word) : fieldCode op < 16 := by
  rw [fieldCode]; omega

/-! The families of R95: whatever the function selects, its encoding holds that function. -/

theorem encode_of_decodeFamily8 {x y : RegIdx} {n : Fin 16} (h : decodeFamily8 x y n.val = some i) :
    WellFormed i = true ∧ encode i = formatD 0x8 x y n := by
  fin_cases n <;> cases h <;> exact ⟨rfl, rfl⟩

theorem encode_of_decodeFamilyE {x : RegIdx} {k : Nat} (h : decodeFamilyE x k = some i) :
    WellFormed i = true ∧ encode i = formatI 0xE x (BitVec.ofNat 8 k) := by
  unfold decodeFamilyE at h
  split at h <;> cases h <;> exact ⟨rfl, rfl⟩

theorem encode_of_decodeFamilyF {x : RegIdx} {k : Nat} (h : decodeFamilyF x k = some i) :
    WellFormed i = true ∧ encode i = formatI 0xF x (BitVec.ofNat 8 k) := by
  unfold decodeFamilyF at h
  split at h <;> cases h <;> exact ⟨rfl, rfl⟩

/-- Whatever a word decodes to, its fields put together in the format of its code are the word. -/
theorem encode_of_decodeWord (h : decodeWord op = some i) : WellFormed i = true ∧ encode i = op := by
  have hlt := fieldCode_lt op
  rw [decodeWord] at h
  revert h
  match hc : fieldCode op with
  | 0x0 =>
    intro h
    simp only at h
    split_ifs at h with hcls hret <;> cases h
    · exact ⟨rfl, hcls.symm⟩
    · exact ⟨rfl, hret.symm⟩
  | 0x1 | 0x2 | 0xA =>
    rintro ⟨⟩
    exact ⟨rfl, formatA_fields hc⟩
  | 0xB =>
    rintro ⟨⟩
    exact ⟨decide_eq_true (fieldX_eq_topNibble op), formatA_fields hc⟩
  | 0x3 | 0x4 | 0x6 | 0x7 | 0xC =>
    rintro ⟨⟩
    exact ⟨rfl, formatI_fields hc rfl⟩
  | 0x5 | 0x9 =>
    intro h
    obtain ⟨hn, ⟨⟩⟩ := Option.ite_none_right_eq_some.1 h
    exact ⟨rfl, formatD_fields hc hn⟩
  | 0x8 =>
    intro h
    obtain ⟨hwf, henc⟩ := encode_of_decodeFamily8 h
    exact ⟨hwf, henc.trans (formatD_fields hc rfl)⟩
  | 0xD =>
    rintro ⟨⟩
    exact ⟨rfl, formatD_fields hc rfl⟩
  | 0xE =>
    intro h
    obtain ⟨hwf, henc⟩ := encode_of_decodeFamilyE h
    exact ⟨hwf, henc.trans (formatI_fields hc (by simp))⟩
  | 0xF =>
    intro h
    obtain ⟨hwf, henc⟩ := encode_of_decodeFamilyF h
    exact ⟨hwf, henc.trans (formatI_fields hc (by simp))⟩
  | n + 16 => omega

/-! ### The opcode table -/

/-! A mask with every bit of a field set keeps the field. -/

theorem fieldCode_and (hm : fieldCode m = 15) : fieldCode (op &&& m) = fieldCode op := by
  calc fieldCode (op &&& m)
    _ = fieldCode op &&& fieldCode m := Nat.and_div_two_pow (n := 12)
    _ = fieldCode op := by rw [hm]; exact Nat.and_two_pow_sub_one_of_lt_two_pow (n := 4) (fieldCode_lt op)

theorem fieldN_and (hm : fieldN m = 15) : fieldN (op &&& m) = fieldN op := Fin.ext <| by
  calc (fieldN (op &&& m)).val
    _ = (fieldN op).val &&& (fieldN m).val := Nat.and_mod_two_pow (n := 4)
    _ = (fieldN op).val := by rw [hm]; exact Nat.and_two_pow_sub_one_of_lt_two_pow (n := 4) (fieldN op).isLt

theorem fieldNN_and (hm : fieldNN m = 0xFF#8) : fieldNN (op &&& m) = fieldNN op := by
  calc fieldNN (op &&& m)
    _ = fieldNN op &&& fieldNN m := by simp [fieldNN]
    _ = fieldNN op := by rw [hm, and_full_byte]

open Laws.EncodingFitsRow in
/-- Every encoding has the fixed bits of its row. -/
theorem encodingFitsRow : ∀ i, Statement i
  | .cls => cls | .ret => ret | .jp nnn => jp nnn | .call nnn => call nnn | .seImm x nn => seImm x nn
  | .sneImm x nn => sneImm x nn | .seReg x y => seReg x y | .ldImm x nn => ldImm x nn | .addImm x nn => addImm x nn
  | .ldReg x y => ldReg x y | .orReg x y => orReg x y | .andReg x y => andReg x y | .xorReg x y => xorReg x y
  | .addReg x y => addReg x y | .subReg x y => subReg x y | .shr x y => shr x y | .subnReg x y => subnReg x y
  | .shl x y => shl x y | .sneReg x y => sneReg x y | .ldI nnn => ldI nnn | .jpOffset nnn x => jpOffset nnn x
  | .rnd x nn => rnd x nn | .drw x y n => drw x y n | .skp x => skp x | .sknp x => sknp x | .ldVxDt x => ldVxDt x
  | .ldVxK x => ldVxK x | .ldDtVx x => ldDtVx x | .ldStVx x => ldStVx x | .addIVx x => addIVx x
  | .ldFVx x => ldFVx x | .ldBVx x => ldBVx x | .storeRegs x => storeRegs x | .loadRegs x => loadRegs x

/-- The mask of a row keeps the fields the tree branches on, so a word the row selects takes the row's branch. -/
theorem decodeWord_of_selects (h : op &&& i.row.mask = i.row.value) :
    ∃ j, decodeWord op = some j ∧ j.row = i.row := by
  cases i with simp only [Instr.row] at h
  | cls | ret =>
    have hop : op = _ := (BitVec.and_allOnes (x := op)).symm.trans h
    exact ⟨_, congrArg decodeWord hop, rfl⟩
  | jp | call | seImm | sneImm | ldImm | addImm | ldI | jpOffset | rnd | drw =>
    have hc := (fieldCode_and (m := 0xF000#16) rfl).symm.trans (congrArg fieldCode h)
    rw [decodeWord, hc]
    exact ⟨_, rfl, rfl⟩
  | seReg | ldReg | orReg | andReg | xorReg | addReg | subReg | shr | subnReg | shl | sneReg =>
    have hc := (fieldCode_and (m := 0xF00F#16) rfl).symm.trans (congrArg fieldCode h)
    have hn := (fieldN_and (m := 0xF00F#16) rfl).symm.trans (congrArg fieldN h)
    rw [decodeWord, hc, hn]
    exact ⟨_, rfl, rfl⟩
  | skp | sknp | ldVxDt | ldVxK | ldDtVx | ldStVx | addIVx | ldFVx | ldBVx | storeRegs | loadRegs =>
    have hc := (fieldCode_and (m := 0xF0FF#16) rfl).symm.trans (congrArg fieldCode h)
    have hnn := (fieldNN_and (m := 0xF0FF#16) rfl).symm.trans (congrArg fieldNN h)
    rw [decodeWord, hc, hnn]
    exact ⟨_, rfl, rfl⟩

theorem selects_of_decodeWord (h : decodeWord op = some i) : op &&& i.row.mask = i.row.value := by
  obtain ⟨-, rfl⟩ := encode_of_decodeWord h
  exact encodingFitsRow i

theorem row_selects_iff {r : OpcodeRow} (hr : r ∈ opcodeTable) :
    op &&& r.mask = r.value ↔ ∃ i, decodeWord op = some i ∧ i.row = r := by
  obtain ⟨i, -, rfl⟩ := List.mem_map.1 hr
  refine ⟨decodeWord_of_selects, ?_⟩
  rintro ⟨j, hd, hrow⟩
  exact hrow ▸ selects_of_decodeWord hd

/-! ### The illegal words -/

theorem decodeFamily8_eq_none_iff (x y : RegIdx) {k : Nat} (hk : k < 16) :
    decodeFamily8 x y k = none ↔ k ∈ [0x8, 0x9, 0xA, 0xB, 0xC, 0xD, 0xF] := by
  interval_cases k <;> simp [decodeFamily8]

theorem decodeFamilyE_eq_none_iff (x : RegIdx) (k : Nat) : decodeFamilyE x k = none ↔ k ∉ [0x9E, 0xA1] := by
  unfold decodeFamilyE
  split <;> simp_all

theorem decodeFamilyF_eq_none_iff (x : RegIdx) (k : Nat) :
    decodeFamilyF x k = none ↔ k ∉ [0x07, 0x0A, 0x15, 0x18, 0x1E, 0x29, 0x33, 0x55, 0x65] := by
  unfold decodeFamilyF
  split <;> simp_all

end

end Sys2Proof

namespace Sys2Proof.Machine

/-! ### The refused Cycle -/

/-- A scheduled Cycle of a halted core is refused (60_exceptions.md R240). -/
theorem step_cycle_halted {s : State} {rnd : Byte} {rest : List Transaction} (h : s.status = .halted)
    (hp : s.pending = .cycle rnd :: rest) : step s = .next { s with pending := rest, result := .refusedHalted } := by
  rw [step_of_pending hp]
  exact cycle_halted (s := { s with pending := rest }) h rnd

/-! ### The statements -/

/-- Settles O52. -/
theorem decodeOfEncodeIsIdentity : Obligations.DecodeOfEncodeIsIdentity :=
  fun _ rest h => decode_bytes_of_decodeWord (decodeWord_encode h) rest

/-- Settles O53. -/
theorem encodeOfDecodeIsIdentity : Obligations.EncodeOfDecodeIsIdentity :=
  fun _ _ => encode_of_decodeWord

/-- Settles O54: two rows that select a word are both the row of the one instruction it decodes to. -/
theorem decoderAgreesWithOpcodeTable : Obligations.DecoderAgreesWithOpcodeTable := by
  refine ⟨fun _ _ => row_selects_iff, fun op r r' hr hr' h h' => ?_⟩
  obtain ⟨i, hi, rfl⟩ := (row_selects_iff hr).1 h
  obtain ⟨j, hj, rfl⟩ := (row_selects_iff hr').1 h'
  rw [Option.some.inj (hi.symm.trans hj)]

/-- Settles O55, code by code: the codes that decode whatever follows, whole words, and the families. -/
theorem illegalWordsAreExactlyListed : Obligations.IllegalWordsAreExactlyListed := by
  intro op
  have hlt := fieldCode_lt op
  have hcode : op.toNat / 4096 = fieldCode op := rfl
  have hn : op.toNat % 16 = (fieldN op).val := rfl
  have hnn : op.toNat % 256 = (fieldNN op).toNat := rfl
  simp only [hcode, hn, hnn]
  match hc : fieldCode op with
  | 0x0 =>
    simp only [decodeWord, hc, ← BitVec.toNat_inj, BitVec.reduceToNat]
    split_ifs <;> simp [*]
  | 0x1 | 0x2 | 0x3 | 0x4 | 0x6 | 0x7 | 0xA | 0xB | 0xC | 0xD => simp [decodeWord, hc]
  | 0x5 | 0x9 => simp [decodeWord, hc]
  | 0x8 => simpa [decodeWord, hc] using decodeFamily8_eq_none_iff _ _ (fieldN op).isLt
  | 0xE => simpa [decodeWord, hc] using decodeFamilyE_eq_none_iff _ (fieldNN op).toNat
  | 0xF => simpa [decodeWord, hc] using decodeFamilyF_eq_none_iff _ (fieldNN op).toNat
  | n + 16 => omega

/-- Settles O56: the five words are run. -/
theorem sourceWordsDecode : Obligations.SourceWordsDecode := ⟨rfl, rfl, rfl, rfl, rfl⟩

/-- Settles O9: the Cycle's report comes after the advance, so its address is `PC` less 2; Fatal halts the core. -/
theorem illegalWordHalts : Obligations.IllegalWordHalts := by
  intro s rnd op hc hpc hd
  obtain ⟨hw, hnone⟩ := unmatchedWord_of_decode hd
  obtain rfl : s.fetchWord = op := hw
  have haddr : (s.executing rnd).fetchAddr = s.pc := BitVec.add_sub_cancel s.pc 2#16
  refine ⟨(s.executing rnd).raise (.fatal s.fetchWord) s.pc, ?_, ⟨rfl, rfl, rfl, rfl, rfl⟩, rfl, rfl, rfl,
    fun _ => step_cycle_halted rfl rfl⟩
  rw [step_of_cycleNext hc, runningCycle_illegalWord (s := s.afterTake) hpc hnone, beginCycle_advance_eq_executing,
    State.raiseHere, haddr]
  rfl

end Sys2Proof.Machine

/-! PROOFS of the statements about control flow (40_control_flow.md): what a call, a return and a skip do, said once
each as an equation; what a valid stack cell may hold, and that every instruction, Cycle and step keeps it. -/

namespace Sys2Proof.Machine

/-! ### Writes to `PC` -/

theorem toNat_zextImm (nnn : Imm12) : (zextImm nnn).toNat = nnn.toNat := by
  rw [zextImm, BitVec.toNat_ofNat]; omega

/-- The target of BNNN is the full sum, in 13 bits (D16). -/
theorem toNat_zextImm_add_zextByte (nnn : Imm12) (b : Byte) :
    (zextImm nnn + zextByte b).toNat = nnn.toNat + b.toNat := by
  rw [BitVec.toNat_add, toNat_zextImm, zextByte, BitVec.toNat_ofNat]; omega

theorem onlyPc_setPc (s : State) (w : Word) : OnlyPc s (s.setPc w) := ⟨fun _ => rfl, rfl⟩

@[simp] theorem skipIf_pc (s : State) (b : Bool) : (s.skipIf b).pc = if b then s.pc + 2#16 else s.pc := by
  cases b <;> rfl

theorem onlyPc_skipIf (s : State) (b : Bool) : OnlyPc s (s.skipIf b) := by
  cases b
  · exact ⟨fun _ => rfl, rfl⟩
  · exact onlyPc_setPc s _

/-! ### Calls and returns -/

section
variable {s : State}

/-- A call with `k` calls outstanding fills cell `k` (R123). -/
theorem exec_call_done (nnn : Imm12) {k : Fin 16} (h : s.sp.val = k.val) :
    exec (.call nnn) s = .next { s with stack := s.stack.set k.val s.pc, sp := k.succ, pc := zextImm nnn } := by
  rw [exec, execCall, push_done s.pc _ (by omega)]
  simp only [h]
  rfl

theorem exec_call_raised (nnn : Imm12) (h : s.sp.val = 16) :
    exec (.call nnn) s = .next (s.raiseHere (.stackOverflow (zextImm nnn))) := by
  rw [exec, execCall, push_raised s.pc _ h]

/-- A return with `k + 1` calls outstanding takes cell `k` (R121). -/
theorem exec_ret_done {k : Fin 16} (h : s.sp.val = k.val + 1) :
    exec .ret s = .next { s with sp := k.castSucc, pc := s.stack[k.val] } := by
  rw [exec, execRet, popPc_done (by omega)]
  simp only [h, Nat.add_sub_cancel]
  rfl

theorem exec_ret_raised (h : s.sp.val = 0) : exec .ret s = .next (s.raiseHere .stackUnderflow) := by
  rw [exec, execRet, popPc_raised h]
  rfl

end

/-! ### The skips, their conditions as numbers -/

section
variable (x y : RegIdx) (nn : Byte) (s : State)

theorem exec_seImm : exec (.seImm x nn) s = .next (s.skipIf (decide ((s.reg x).toNat = nn.toNat))) := by
  simp only [exec, execSeImm, BitVec.toNat_inj]

theorem exec_sneImm : exec (.sneImm x nn) s = .next (s.skipIf (!decide ((s.reg x).toNat = nn.toNat))) := by
  simp only [exec, execSneImm, BitVec.toNat_inj, decide_not, ne_eq]

theorem exec_seReg : exec (.seReg x y) s = .next (s.skipIf (decide ((s.reg x).toNat = (s.reg y).toNat))) := by
  simp only [exec, execSeReg, BitVec.toNat_inj]

theorem exec_sneReg : exec (.sneReg x y) s = .next (s.skipIf (!decide ((s.reg x).toNat = (s.reg y).toNat))) := by
  simp only [exec, execSneReg, BitVec.toNat_inj, decide_not, ne_eq]

end

/-! ### Return addresses -/

/-- What a valid call-stack cell may hold: see `returnsLegal_iff`. -/
def ReturnAddress (w : Word) : Prop := w.toNat % 2 = 0 ∧ 0x202 ≤ w.toNat ∧ w.toNat ≤ 4096

section
variable {i : Instr} {s t : State}

theorem returnsLegal_iff : s.ReturnsLegal ↔ ∀ k : Fin 16, k.val < s.sp.val → ReturnAddress s.stack[k.val] := Iff.rfl

/-- The fetch's check of `PC` (20_memory.md R64) makes the advanced `PC` one that a call may push. -/
theorem returnAddress_of_pcLegal (h : s.PcLegal) : ReturnAddress (s.pc + 2#16) := by
  obtain ⟨heven, hlow, hhigh⟩ := h
  have hadd : (s.pc + 2#16).toNat = s.pc.toNat + 2 := by
    rw [BitVec.toNat_add, BitVec.toNat_ofNat]; omega
  rw [ReturnAddress, hadd]
  omega

theorem returnsLegal_of_sp_le (hstack : t.stack = s.stack) (hsp : t.sp.val ≤ s.sp.val) (hs : s.ReturnsLegal) :
    t.ReturnsLegal := by
  rw [State.ReturnsLegal, hstack]
  exact fun k hk => hs k (hk.trans_le hsp)

theorem returnsLegal_of_push {k : Fin 16} {w : Word} (hk : s.sp.val = k.val) (hw : ReturnAddress w)
    (hstack : t.stack = s.stack.set k.val w) (hsp : t.sp = k.succ) (hs : s.ReturnsLegal) : t.ReturnsLegal := by
  rw [returnsLegal_iff, hstack, hsp]
  intro j hj
  have hle : j.val ≤ k.val := Nat.le_of_lt_succ hj
  rw [Vector.getElem_set]
  split
  · exact hw
  · exact hs j (by omega)

theorem exec_call_returnsLegal {nnn : Imm12} (hpc : ReturnAddress s.pc) (hs : s.ReturnsLegal)
    (h : exec (.call nnn) s = .next t) : t.ReturnsLegal := by
  rcases Nat.lt_or_ge s.sp.val 16 with hsp | hsp
  · cases (exec_call_done nnn (k := ⟨s.sp.val, hsp⟩) rfl).symm.trans h
    exact returnsLegal_of_push rfl hpc rfl rfl hs
  · cases (exec_call_raised nnn (by omega)).symm.trans h
    exact hs

theorem exec_ret_sp_le (h : exec .ret s = .next t) : t.sp.val ≤ s.sp.val := by
  rcases Nat.eq_zero_or_pos s.sp.val with h0 | h0
  · cases (exec_ret_raised h0).symm.trans h
    exact le_rfl
  · cases (exec_ret_done (k := ⟨s.sp.val - 1, by omega⟩) (by simp only; omega)).symm.trans h
    exact Nat.sub_le _ 1

/-- A call pushes `PC`, a return lowers `SP`, and no other instruction writes the stack. -/
theorem exec_returnsLegal (hpc : ReturnAddress s.pc) (hs : s.ReturnsLegal) (h : exec i s = .next t) :
    t.ReturnsLegal := by
  by_cases hcall : ∃ nnn, i = .call nnn
  · obtain ⟨nnn, rfl⟩ := hcall
    exact exec_call_returnsLegal hpc hs h
  obtain ⟨-, -, -, hstack, hsp, -⟩ := eachStateHasItsWriters i s t h
  refine returnsLegal_of_sp_le (not_imp_comm.1 hstack hcall) ?_ hs
  by_cases hret : i = .ret
  · exact exec_ret_sp_le (hret ▸ h)
  · exact (congrArg Fin.val (not_imp_comm.1 hsp (not_or.2 ⟨hret, hcall⟩))).le

theorem runningCycle_returnsLegal {rnd : Byte} (hs : s.ReturnsLegal) (h : runningCycle rnd s = .next t) :
    t.ReturnsLegal := by
  by_cases hpc : s.PcLegal
  · cases hd : decodeWord s.fetchWord with
    | none => cases (runningCycle_illegalWord hpc hd).symm.trans h; exact hs
    | some i =>
      exact exec_returnsLegal (s := (s.beginCycle rnd).advance) (returnAddress_of_pcLegal hpc) hs
        ((runningCycle_decoded hpc hd).symm.trans h)
  · cases (runningCycle_illegalPc hpc).symm.trans h
    exact hs

theorem load_returnsLegal (hs : s.ReturnsLegal) (bytes : List Byte) : (s.load bytes).ReturnsLegal := by
  rcases Nat.lt_or_ge 3584 bytes.length with h | h
  · rw [load_tooLarge s h]; exact hs
  · rw [load_fits s h]; exact hs

end

/-! ### The statements -/

/-- Settles O50: the stack is written by a Cycle and by Reset only; a call pushes the `PC` that passed the fetch's
check, advanced by 2. -/
theorem stepKeepsReturnAddressesLegal : Obligations.StepKeepsReturnAddressesLegal := by
  intro s t hs h
  cases step_inv h with
  | reset => exact nofun
  | load bytes => exact load_returnsLegal (s := s.afterTake) hs bytes
  | ran rnd _ ht => exact runningCycle_returnsLegal (s := s.afterTake) hs ht
  | refused | tick | setKey | observe => exact hs

/-- Settles O15. -/
theorem callPushesReturnAddress : Obligations.CallPushesReturnAddress := by
  refine fun nnn => ⟨decodeWord_encode (i := .call nnn) rfl, fun s => ⟨fun hsp => ?_, fun hsp => ?_⟩⟩
  · refine ⟨_, exec_call_done nnn (k := ⟨s.sp.val, hsp⟩) rfl, toNat_zextImm nnn, rfl, fun k => ?_, fun _ => rfl, rfl⟩
    exact (Vector.getElem_set hsp _).trans (if_congr eq_comm rfl rfl)
  · exact ⟨_, exec_call_raised nnn hsp, ⟨rfl, rfl, rfl, rfl, rfl⟩, fun _ => rfl, rfl⟩

/-- Settles O16. -/
theorem returnPopsProgramCounter : Obligations.ReturnPopsProgramCounter := by
  refine ⟨rfl, fun s => ⟨fun k hsp => ?_, fun hsp => ?_⟩⟩
  · exact ⟨_, exec_ret_done hsp, rfl, rfl, fun _ => rfl, rfl⟩
  · exact ⟨_, exec_ret_raised hsp, ⟨rfl, rfl, rfl, rfl, rfl⟩, fun _ => rfl, rfl⟩

/-- Settles O17: the return reads the one cell that the call wrote. -/
theorem returnUndoesCall : Obligations.ReturnUndoesCall := by
  intro nnn s t u hsp h hstack husp
  cases (exec_call_done nnn (k := ⟨s.sp.val, hsp⟩) rfl).symm.trans h
  refine ⟨_, exec_ret_done (k := ⟨s.sp.val, hsp⟩) (congrArg Fin.val husp), ?_, rfl, fun k hk => ?_⟩
  · simp only [hstack, Vector.getElem_set_self]
  · simp only [hstack, Vector.getElem_set_ne _ _ hk.ne']

/-- Settles O19. -/
theorem jumpWithOffsetAddsRegister : Obligations.JumpWithOffsetAddsRegister := by
  refine fun nnn => ⟨decodeWord_encode (i := .jpOffset nnn _) (decide_eq_true rfl), fun x s =>
    ⟨_, rfl, onlyPc_setPc s _, fun hp => ?_, fun hp => ?_⟩⟩
  all_goals rw [setPc_pc, toNat_zextImm_add_zextByte, State.jumpOffset, hp]

/-- Settles O14. -/
theorem jumpSetsProgramCounter : Obligations.JumpSetsProgramCounter :=
  fun nnn => ⟨decodeWord_encode (i := .jp nnn) rfl, fun s => ⟨_, rfl, toNat_zextImm nnn, onlyPc_setPc s _⟩⟩

/-- Settles O18. -/
theorem skipsAddTwoOnCondition : Obligations.SkipsAddTwoOnCondition := by
  refine fun x y nn => ⟨decodeWord_encode (i := .seImm x nn) rfl, decodeWord_encode (i := .sneImm x nn) rfl,
    decodeWord_encode (i := .seReg x y) rfl, decodeWord_encode (i := .sneReg x y) rfl, fun s p hp => ?_⟩
  have hexec : exec p.1 s = .next (s.skipIf p.2) := by
    simp only [List.mem_cons, List.not_mem_nil, or_false] at hp
    obtain rfl | rfl | rfl | rfl := hp
    · exact exec_seImm x nn s
    · exact exec_sneImm x nn s
    · exact exec_seReg x y s
    · exact exec_sneReg x y s
  exact ⟨_, hexec, skipIf_pc s p.2, onlyPc_skipIf s p.2⟩

end Sys2Proof.Machine

/-! PROOFS of the statements about the register instructions (41_alu.md): the words of family 8, what a write of a register
and of a register with a flag leaves, the results and the flags as numbers; and that only CXNN reads the random byte. -/

namespace Sys2Proof.Machine

/-! ### Words and the step that fetches one -/

/-- A word of family 8 decodes by its function nibble (30_encoding.md R95). -/
theorem decodeWord_family8 (x y : RegIdx) (f : Fin 16) :
    decodeWord (BitVec.ofNat 16 (0x8000 + f.val + x.val * 256 + y.val * 16)) = decodeFamily8 x y f.val := by
  have hword : BitVec.ofNat 16 (0x8000 + f.val + x.val * 256 + y.val * 16) = formatD 0x8 x y f := by
    rw [formatD]; congr 1; omega
  simp [hword, decodeWord]

theorem decodeWord_of_decode {hi lo : Byte} {rest rest' : List Byte} {i : Instr}
    (h : decode (hi :: lo :: rest) = .ok (i, rest')) : decodeWord (wordOfBytes hi lo) = some i := by
  cases hd : decodeWord (wordOfBytes hi lo) with
  | some j =>
    simp only [decode, hd, Except.ok.injEq, Prod.mk.injEq] at h
    rw [h.1]
  | none => simp [decode, hd] at h

/-- A step that fetches `i` is the execute step of `i`. -/
theorem step_of_executes {s : State} {rnd : Byte} {i : Instr} (h : s.Executes rnd i) :
    step s = exec i (s.executing rnd) := by
  obtain ⟨hc, hpc, hd⟩ := h
  exact (fetchChecksProgramCounter s rnd hc).2 hpc i (decodeWord_of_decode hd)

/-! ### A register, and a register with a flag -/

section
variable (s : State) (x : RegIdx) (b : Byte) (f : Bool)

theorem onlyRegs_setReg : OnlyRegs [x] s (s.setReg x b) :=
  ⟨fun _ hr => reg_setReg_other s (List.ne_of_not_mem_cons hr) b, fun _ => rfl, rfl⟩

theorem onlyRegs_setRegAndFlag : OnlyRegs [x, 15] s (s.setRegAndFlag x b f) := by
  refine ⟨fun r hr => ?_, fun _ => rfl, rfl⟩
  obtain ⟨hx, hvf⟩ : r ≠ x ∧ r ≠ vf := by simpa using hr
  exact (reg_setRegAndFlag s hvf b f).trans (if_neg hx)

variable {x}

theorem reg_setRegAndFlag_same (hx : x ≠ 15) : (s.setRegAndFlag x b f).reg x = b :=
  (reg_setRegAndFlag s hx b f).trans (if_pos rfl)

/-- Result and flag as numbers: what the laws of R153 speak of. -/
theorem toNat_setRegAndFlag (hx : x ≠ 15) :
    ((s.setRegAndFlag x b f).reg x).toNat = b.toNat ∧ ((s.setRegAndFlag x b f).reg 15).toNat = f.toNat :=
  ⟨congrArg BitVec.toNat (reg_setRegAndFlag_same s b f hx),
    (congrArg BitVec.toNat (reg_setRegAndFlag_vf s x b f)).trans (flagByte_toNat f)⟩

end

/-! ### Results and flags as numbers -/

section
variable (a b : Byte)

theorem toNat_sumByte : (sumByte a b).toNat = (a.toNat + b.toNat) % 256 := BitVec.toNat_ofNat _ _

theorem toNat_diffByte : (diffByte a b).toNat = (a.toNat + 256 - b.toNat) % 256 := BitVec.toNat_ofNat _ _

theorem toNat_shiftRight : (shiftRight b).toNat = b.toNat / 2 := by
  rw [shiftRight, BitVec.toNat_ofNat]; omega

theorem toNat_shiftLeft : (shiftLeft b).toNat = b.toNat * 2 % 256 := BitVec.toNat_ofNat _ _

theorem flagByte_carryOut : flagByte (carryOut a b) = if a.toNat + b.toNat > 255 then 0x01#8 else 0x00#8 := by
  simp [flagByte, carryOut]

theorem flagByte_noBorrow : flagByte (noBorrow a b) = if a.toNat < b.toNat then 0x00#8 else 0x01#8 := by
  by_cases h : a.toNat < b.toNat <;> simp [flagByte, noBorrow, h]

theorem toNat_noBorrow_eq_one : (noBorrow a b).toNat = 1 ↔ b.toNat ≤ a.toNat := by
  simp [noBorrow]

/-- The bit shifted out is what the halved value lacks. -/
theorem toNat_flagByte_outLow : (flagByte (outLow b)).toNat = b.toNat % 2 := by
  have hlaw := shiftRight_outLow b
  rw [toNat_shiftRight] at hlaw
  rw [flagByte_toNat]; omega

/-- The bit shifted out is what the doubled value lacks. -/
theorem toNat_flagByte_outHigh : (flagByte (outHigh b)).toNat = b.toNat / 128 := by
  have hlaw := shiftLeft_outHigh b
  rw [toNat_shiftLeft] at hlaw
  rw [flagByte_toNat]; omega

end

/-! ### The shifts of a selected source -/

section
variable {s : State} {x y : RegIdx} {src : Byte}

theorem shiftOperand_eq
    (h : s.params.shiftSource = .vx ∧ src = s.reg x ∨ s.params.shiftSource = .vy ∧ src = s.reg y) :
    s.shiftOperand x y = src := by
  obtain ⟨hp, rfl⟩ | ⟨hp, rfl⟩ := h <;> rw [State.shiftOperand, hp]

theorem exec_shr (h : s.shiftOperand x y = src) :
    exec (.shr x y) s = .next (s.setRegAndFlag x (shiftRight src) (outLow src)) := by
  rw [exec, execShr, h]

theorem exec_shl (h : s.shiftOperand x y = src) :
    exec (.shl x y) s = .next (s.setRegAndFlag x (shiftLeft src) (outHigh src)) := by
  rw [exec, execShl, h]

end

/-! ### The laws of R153 on the next state -/

section
variable {s t : State} {x y : RegIdx} (hx : x ≠ 15)
include hx

theorem addReg_law (h : exec (.addReg x y) s = .next t) :
    (t.reg x).toNat + 256 * (t.reg 15).toNat = (s.reg x).toNat + (s.reg y).toNat := by
  cases h
  obtain ⟨hres, hflag⟩ := toNat_setRegAndFlag s (sumByte (s.reg x) (s.reg y)) (carryOut (s.reg x) (s.reg y)) hx
  rw [hres, hflag]
  exact sumByte_carryOut _ _

/-- SUB and SUBN in one: the operands are `a` and `b`. -/
theorem difference_law (a b : Byte) (ht : t = s.setRegAndFlag x (diffByte a b) (noBorrow a b)) :
    (t.reg x).toNat + b.toNat = a.toNat + 256 * (1 - (t.reg 15).toNat) ∧
      ((t.reg 15).toNat = 1 ↔ b.toNat ≤ a.toNat) := by
  obtain ⟨hres, hflag⟩ := toNat_setRegAndFlag s (diffByte a b) (noBorrow a b) hx
  rw [ht, hres, hflag]
  exact ⟨diffByte_noBorrow a b, toNat_noBorrow_eq_one a b⟩

theorem shr_law {src : Byte} (hsrc : s.shiftOperand x y = src) (h : exec (.shr x y) s = .next t) :
    2 * (t.reg x).toNat + (t.reg 15).toNat = src.toNat := by
  cases (exec_shr hsrc).symm.trans h
  obtain ⟨hres, hflag⟩ := toNat_setRegAndFlag s (shiftRight src) (outLow src) hx
  rw [hres, hflag]
  exact shiftRight_outLow src

theorem shl_law {src : Byte} (hsrc : s.shiftOperand x y = src) (h : exec (.shl x y) s = .next t) :
    (t.reg x).toNat + 256 * (t.reg 15).toNat = 2 * src.toNat := by
  cases (exec_shl hsrc).symm.trans h
  obtain ⟨hres, hflag⟩ := toNat_setRegAndFlag s (shiftLeft src) (outHigh src) hx
  rw [hres, hflag]
  exact shiftLeft_outHigh src

end

/-! ### Another random byte -/

/-- The state with another random byte (R155). -/
def State.withRnd (s : State) (b : Byte) : State := { s with rnd := b }

/-- An answer, its next state with another random byte. -/
def answerWithRnd (b : Byte) : Answer → Answer
  | .next t => .next (t.withRnd b)
  | .fault f => .fault f
  | .refused r => .refused r

section
variable (s : State) (b : Byte)

theorem skipIf_withRnd (c : Bool) : (s.withRnd b).skipIf c = (s.skipIf c).withRnd b := by
  cases c <;> rfl

theorem popPc_withRnd : (s.withRnd b).popPc.state = s.popPc.state.withRnd b := by
  by_cases h : 0 < s.sp.val
  · rw [popPc_done h, popPc_done (s := s.withRnd b) h]; rfl
  · have h0 : s.sp.val = 0 := by omega
    rw [popPc_raised h0, popPc_raised (s := s.withRnd b) h0]; rfl

theorem execCall_withRnd (nnn : Imm12) : execCall nnn (s.withRnd b) = answerWithRnd b (execCall nnn s) := by
  by_cases h : s.sp.val < 16
  · rw [execCall, execCall, push_done s.pc _ h, push_done (s := s.withRnd b) _ _ h]; rfl
  · have h16 : s.sp.val = 16 := by omega
    rw [execCall, execCall, push_raised s.pc _ h16, push_raised (s := s.withRnd b) _ _ h16]; rfl

theorem readBlock_withRnd (a n : Nat) : (s.withRnd b).readBlock a n = s.readBlock a n := by
  induction n generalizing a with
  | zero => rfl
  | succ n ih => rw [State.readBlock, State.readBlock, ih]; rfl

theorem storeBlock_withRnd (bytes : List Byte) (a : Nat) :
    ((s.withRnd b).storeBlock a bytes).state = (s.storeBlock a bytes).state.withRnd b := by
  induction bytes generalizing s a with
  | nil => rfl
  | cons c cs ih =>
    rw [State.storeBlock, State.storeBlock]
    by_cases ha : 4095 < a
    · rw [memWrite_error c ha, memWrite_error c ha]; rfl
    · rw [memWrite_ok c (by omega), memWrite_ok c (by omega)]
      exact ih (s.writeByte a c) (a + 1)

theorem loadBlock_withRnd (rs : List RegIdx) (a : Nat) :
    ((s.withRnd b).loadBlock a rs).state = (s.loadBlock a rs).state.withRnd b := by
  induction rs generalizing s a with
  | nil => rfl
  | cons r rs ih =>
    rw [State.loadBlock, State.loadBlock]
    by_cases ha : 4095 < a
    · rw [memRead_error ha, memRead_error ha]; rfl
    · rw [memRead_ok (by omega), memRead_ok (by omega)]
      exact ih (s.setReg r (s.readByte a)) (a + 1)

theorem execDrw_withRnd (x y : RegIdx) (n : Fin 16) :
    execDrw x y n (s.withRnd b) = answerWithRnd b (execDrw x y n s) := by
  have hr : (s.withRnd b).readBlock (s.withRnd b).baseAddr n.val = s.readBlock s.baseAddr n.val :=
    readBlock_withRnd s b _ _
  rw [execDrw, execDrw, hr]
  cases s.readBlock s.baseAddr n.val <;> rfl

theorem keySkip_withRnd (x : RegIdx) (skips : KeyIdx → Bool) :
    keySkip x skips (s.withRnd b) = answerWithRnd b (keySkip x skips s) := by
  have hk : keyOperand (s.withRnd b).params.keyIndexPolicy ((s.withRnd b).reg x) =
      keyOperand s.params.keyIndexPolicy (s.reg x) := rfl
  rw [keySkip, keySkip, hk]
  cases keyOperand s.params.keyIndexPolicy (s.reg x) with
  | error c => rfl
  | ok k => exact congrArg Host.Outcome.next (skipIf_withRnd s b (skips k))

theorem execLdVxK_withRnd (x : RegIdx) : execLdVxK x (s.withRnd b) = answerWithRnd b (execLdVxK x s) := by
  have hf : (s.withRnd b).firstKey = s.firstKey := rfl
  rw [execLdVxK, execLdVxK, hf]
  cases s.firstKey <;> rfl

/-- Every instruction but CXNN does the same with another random byte, and leaves that byte. -/
theorem exec_withRnd {i : Instr} (hi : ∀ x nn, i ≠ .rnd x nn) : exec i (s.withRnd b) = answerWithRnd b (exec i s) := by
  cases i with
  | rnd x nn => exact absurd rfl (hi x nn)
  | ret => exact congrArg Host.Outcome.next (popPc_withRnd s b)
  | call nnn => exact execCall_withRnd s b nnn
  | seImm | sneImm | seReg | sneReg => exact congrArg Host.Outcome.next (skipIf_withRnd s b _)
  | drw x y n => exact execDrw_withRnd s b x y n
  | skp x => exact keySkip_withRnd s b x s.keyHeld
  | sknp x => exact keySkip_withRnd s b x fun k => !s.keyHeld k
  | ldVxK x => exact execLdVxK_withRnd s b x
  | ldBVx | storeRegs => exact congrArg Host.Outcome.next (storeBlock_withRnd s b _ _)
  | loadRegs => exact congrArg Host.Outcome.next (loadBlock_withRnd s b _ _)
  | cls | jp | ldImm | addImm | ldReg | orReg | andReg | xorReg | addReg | subReg | shr | subnReg | shl | ldI
  | jpOffset | ldVxDt | ldDtVx | ldStVx | addIVx | ldFVx => rfl

end

/-! ### The statements -/

/-- Settles O23. -/
theorem addWritesSumThenCarry : Obligations.AddWritesSumThenCarry := by
  refine fun x y => ⟨decodeWord_family8 x y 0x4, fun s =>
    ⟨_, rfl, onlyRegs_setRegAndFlag s x _ _, fun hx => ?_, ?_⟩⟩
  · rw [reg_setRegAndFlag_same s _ _ hx, toNat_sumByte]
  · exact (reg_setRegAndFlag_vf s x _ _).trans (flagByte_carryOut _ _)

/-- Settles O24. -/
theorem subtractsWriteDifferenceThenNoBorrow : Obligations.SubtractsWriteDifferenceThenNoBorrow := by
  refine fun x y => ⟨decodeWord_family8 x y 0x5, decodeWord_family8 x y 0x7, fun s =>
    ⟨⟨_, rfl, onlyRegs_setRegAndFlag s x _ _, fun hx => ?_, ?_⟩,
      ⟨_, rfl, onlyRegs_setRegAndFlag s x _ _, fun hx => ?_, ?_⟩⟩⟩
  · rw [reg_setRegAndFlag_same s _ _ hx, toNat_diffByte]
  · exact (reg_setRegAndFlag_vf s x _ _).trans (flagByte_noBorrow _ _)
  · rw [reg_setRegAndFlag_same s _ _ hx, toNat_diffByte]
  · exact (reg_setRegAndFlag_vf s x _ _).trans (flagByte_noBorrow _ _)

/-- Settles O25: the parameter selects the source, and each shift is one write of a register with its flag. -/
theorem shiftsWriteResultThenBitOut : Obligations.ShiftsWriteResultThenBitOut := by
  refine fun x y => ⟨decodeWord_family8 x y 0x6, decodeWord_family8 x y 0xE, fun s src hsrc =>
    ⟨⟨_, exec_shr (shiftOperand_eq hsrc), onlyRegs_setRegAndFlag s x _ _, fun hx => ?_, ?_⟩,
      ⟨_, exec_shl (shiftOperand_eq hsrc), onlyRegs_setRegAndFlag s x _ _, fun hx => ?_, ?_⟩⟩⟩
  · rw [reg_setRegAndFlag_same s _ _ hx, toNat_shiftRight]
  · rw [reg_setRegAndFlag_vf, toNat_flagByte_outLow]
  · rw [reg_setRegAndFlag_same s _ _ hx, toNat_shiftLeft]
  · rw [reg_setRegAndFlag_vf, toNat_flagByte_outHigh]

/-- Settles O26. -/
theorem arithmeticLosesNothing : Obligations.ArithmeticLosesNothing := by
  intro x y s t hx
  refine ⟨addReg_law hx, fun h => ?_, fun h => ?_, fun hp => ?_, fun hp => ?_, fun hp => ?_, fun hp => ?_⟩
  · exact difference_law hx (s.reg x) (s.reg y) (Host.Outcome.next.inj h).symm
  · exact difference_law hx (s.reg y) (s.reg x) (Host.Outcome.next.inj h).symm
  · exact shr_law hx (shiftOperand_eq (.inl ⟨hp, rfl⟩))
  · exact shl_law hx (shiftOperand_eq (.inl ⟨hp, rfl⟩))
  · exact shr_law hx (shiftOperand_eq (.inr ⟨hp, rfl⟩))
  · exact shl_law hx (shiftOperand_eq (.inr ⟨hp, rfl⟩))

/-- Settles O30. -/
theorem onlyRandomReadsRandomInput : Obligations.OnlyRandomReadsRandomInput :=
  fun _ s _ b hi h => (exec_withRnd s b hi).trans (congrArg (answerWithRnd b) h)

/-- Settles O21. -/
theorem immediatesLoadAndAdd : Obligations.ImmediatesLoadAndAdd := by
  refine fun x nn => ⟨decodeWord_encode (i := .ldImm x nn) rfl, decodeWord_encode (i := .addImm x nn) rfl, fun s =>
    ⟨⟨_, rfl, reg_setReg_same s x nn, onlyRegs_setReg s x nn⟩, ⟨_, rfl, ?_, onlyRegs_setReg s x _⟩⟩⟩
  rw [reg_setReg_same, toNat_sumByte]

/-- Settles O22. -/
theorem movesAndLogicWriteNoFlag : Obligations.MovesAndLogicWriteNoFlag := by
  refine fun x y => ⟨decodeWord_family8 x y 0x0, decodeWord_family8 x y 0x1, decodeWord_family8 x y 0x2,
    decodeWord_family8 x y 0x3, fun s => ⟨⟨_, rfl, reg_setReg_same s x _, onlyRegs_setReg s x _⟩,
      ⟨_, rfl, onlyRegs_setReg s x _, fun k => ?_⟩, ⟨_, rfl, onlyRegs_setReg s x _, fun k => ?_⟩,
      ⟨_, rfl, onlyRegs_setReg s x _, fun k => ?_⟩⟩⟩
  · rw [reg_setReg_same, BitVec.getLsbD_or]
  · rw [reg_setReg_same, BitVec.getLsbD_and]
  · rw [reg_setReg_same, BitVec.getLsbD_xor]

/-- Settles O29: the execute step finds the Cycle's byte in `rnd`. -/
theorem randomWritesMaskedInput : Obligations.RandomWritesMaskedInput := by
  have hbit (s : State) (x : RegIdx) (nn : Byte) (k : Nat) :
      ((s.setReg x (s.rnd &&& nn)).reg x).getLsbD k = (s.rnd.getLsbD k && nn.getLsbD k) := by
    rw [reg_setReg_same, BitVec.getLsbD_and]
  refine fun x nn => ⟨decodeWord_encode (i := .rnd x nn) rfl, fun s => ?_, fun s rnd h => ?_⟩
  · exact ⟨_, rfl, onlyRegs_setReg s x _, hbit s x nn⟩
  · exact ⟨_, step_of_executes h, hbit (s.executing rnd) x nn⟩

end Sys2Proof.Machine

/-! PROOFS of the statements about index and memory (42_index_memory.md): what a block store and a block load leave, whole
and cut short, said once each; then the digits of FX33 and the loop registers of FX55 and FX65 in those blocks. -/

namespace Sys2Proof.Machine

/-! ### Words of family F -/

/-- A word of family F decodes by its low byte (30_encoding.md R95). -/
theorem decodeWord_familyF (x : RegIdx) (f : Byte) :
    decodeWord (BitVec.ofNat 16 (0xF000 + f.toNat + x.val * 256)) = decodeFamilyF x f.toNat := by
  have hword : BitVec.ofNat 16 (0xF000 + f.toNat + x.val * 256) = formatI 0xF x f := by
    rw [formatI]; congr 1; omega
  simp [hword, decodeWord]

/-! ### Writes to `I` -/

theorem onlyI_setI (s : State) (w : Word) : OnlyI s (s.setI w) := ⟨fun _ => rfl, rfl⟩

theorem toNat_add_zextByte (w : Word) (b : Byte) : (w + zextByte b).toNat = (w.toNat + b.toNat) % 65536 := by
  rw [BitVec.toNat_add, zextByte, BitVec.toNat_ofNat]; omega

/-- The font ends below 0x200, so a glyph address does not wrap. -/
theorem toNat_glyphAddr (base : FontBase) (b : Byte) : (glyphAddr base b).toNat = base.val + 5 * (b.toNat % 16) := by
  have hbase := base.isLt
  rw [glyphAddr, BitVec.toNat_ofNat]; omega

/-! ### The report of an address past memory -/

theorem reports_raiseHere (s : State) (c : Condition) : Reports c.cause c.val (s.pc - 2#16) (s.raiseHere c) :=
  ⟨rfl, rfl, rfl, rfl, rfl⟩

/-- A block access cut short changes what it wrote, and nothing else but the report. -/
theorem sansReport_raiseHere_memory (s : State) (v : Vector Byte 16) (m : List Host.Cell) (a : Nat) :
    (({ s with v := v, mem := m } : State).raiseHere (.memory a)).sansReport s = { s with v := v, mem := m } := rfl

/-! ### A block of bytes stored -/

/-- A byte reads the same where memory and the parameters are the same. -/
theorem readByte_congr {s t : State} (hm : s.mem = t.mem) (hp : s.params = t.params) (a : Nat) :
    s.readByte a = t.readByte a := by
  rw [State.readByte, State.readByte, hm, hp]

theorem writeBytes_pc (s : State) (a : Nat) (bytes : List Byte) : (s.writeBytes a bytes).pc = s.pc := by
  rw [writeBytes_eq]

section
variable {s : State} (a : Nat) (bytes : List Byte)

theorem storeBlock_fits (hs : s.MemCanonical) (h : a + bytes.length ≤ 4096) :
    (∀ k (hk : k < bytes.length), (s.storeBlock a bytes).state.readByte (a + k) = bytes[k]) ∧
      OnlyBytes a bytes.length s (s.storeBlock a bytes).state := by
  rw [storeBlock_done bytes s h]
  exact ⟨fun _ hk => writeBytes_readByte bytes hs.1 hk, fun _ => writeBytes_readByte_outside bytes s,
    writeBytes_eq bytes s a⟩

/-- A block that reaches past memory is stored up to address 4095, and the first address past it is reported. -/
theorem storeBlock_cutShort (hs : s.MemCanonical) (h : 4096 < a + bytes.length) (hn : 0 < bytes.length) :
    Reports 2#3 (BitVec.ofNat 16 (max a 4096)) (s.pc - 2#16) (s.storeBlock a bytes).state ∧
      (∀ k (hk : k < bytes.length), a + k ≤ 4095 → (s.storeBlock a bytes).state.readByte (a + k) = bytes[k]) ∧
      SameMemoryOutside a (4096 - a) s (s.storeBlock a bytes).state ∧
      (s.storeBlock a bytes).state.sansReport s = { s with mem := (s.storeBlock a bytes).state.mem } := by
  have hlen : (bytes.take (4096 - a)).length = 4096 - a := by rw [List.length_take]; omega
  rw [storeBlock_raised bytes s h hn]
  refine ⟨?_, fun k hk hfit => ?_, fun a' ha' => ?_, ?_⟩
  · exact writeBytes_pc s a _ ▸ reports_raiseHere _ _
  · exact (writeBytes_readByte _ hs.1 (by omega)).trans List.getElem_take
  · exact writeBytes_readByte_outside _ s (by rwa [hlen])
  · rw [writeBytes_eq]
    exact sansReport_raiseHere_memory s s.v _ _

end

/-! ### What FX33 and FX55 store -/

theorem toNat_bcdDigits (b : Byte) {k : Nat} (hk : k < (bcdDigits b).length) :
    (bcdDigits b)[k].toNat = [b.toNat / 100, b.toNat / 10 % 10, b.toNat % 10].getD k 0 := by
  have hdigits : (bcdDigits b).map BitVec.toNat = [b.toNat / 100, b.toNat / 10 % 10, b.toNat % 10] := by
    have hb := b.isLt
    simp only [bcdDigits, List.map_cons, List.map_nil, BitVec.toNat_ofNat, List.cons.injEq, and_true]
    omega
  rw [← hdigits, List.getD_eq_getElem _ _ (by simpa using hk), List.getElem_map]

theorem length_map_regsUpTo (f : RegIdx → Byte) (x : RegIdx) : ((regsUpTo x).map f).length = x.val + 1 := by
  rw [List.length_map, regsUpTo_length]

theorem getElem_map_regsUpTo (f : RegIdx → Byte) {x r : RegIdx} (h : r.val < ((regsUpTo x).map f).length) :
    ((regsUpTo x).map f)[r.val] = f r := by
  rw [List.getElem_map, regsUpTo_get]

/-! ### The loop registers loaded -/

theorem mem_take_regsUpTo (x r : RegIdx) (n : Nat) : r ∈ (regsUpTo x).take n ↔ r.val ≤ x.val ∧ r.val < n := by
  rw [List.mem_take_iff_getElem]
  constructor
  · rintro ⟨k, hk, rfl⟩
    rw [regsUpTo_length] at hk
    rw [regsUpTo_get]
    dsimp only
    omega
  · rintro ⟨hx, hn⟩
    exact ⟨r.val, by rw [regsUpTo_length]; omega, regsUpTo_get x _⟩

/-- The first `n` loop registers, loaded from `a` upward. -/
theorem reg_setRegsFrom_take (s : State) (a : Nat) (x r : RegIdx) (n : Nat) :
    (s.setRegsFrom a ((regsUpTo x).take n)).reg r =
      if r.val ≤ x.val ∧ r.val < n then s.readByte (a + r.val) else s.reg r := by
  split
  · rename_i h
    have hlen : r.val < ((regsUpTo x).take n).length := by rw [List.length_take, regsUpTo_length]; omega
    have hget : ((regsUpTo x).take n)[r.val] = r := List.getElem_take.trans (regsUpTo_get x _)
    have hnodup : ((regsUpTo x).take n).Nodup := (regsUpTo_nodup x).sublist (List.take_sublist _ _)
    have hload := setRegsFrom_reg _ s a hnodup hlen
    rwa [hget] at hload
  · rename_i h
    exact setRegsFrom_reg_outside _ s a (mt (mem_take_regsUpTo x r n).1 h)

theorem setRegsFrom_pc (s : State) (a : Nat) (rs : List RegIdx) : (s.setRegsFrom a rs).pc = s.pc := by
  rw [setRegsFrom_eq]

theorem sameMemory_setRegsFrom (s : State) (a : Nat) (rs : List RegIdx) : SameMemory s (s.setRegsFrom a rs) := by
  intro a'
  rw [setRegsFrom_eq]
  rfl

theorem loadBlock_fits (s : State) {a : Nat} {x : RegIdx} (h : a + x.val ≤ 4095) :
    (∀ r : RegIdx, (s.loadBlock a (regsUpTo x)).state.reg r =
      if r.val ≤ x.val then s.readByte (a + r.val) else s.reg r) ∧
      SameMemory s (s.loadBlock a (regsUpTo x)).state ∧
      (s.loadBlock a (regsUpTo x)).state = { s with v := (s.loadBlock a (regsUpTo x)).state.v } := by
  have hlen := regsUpTo_length x
  rw [loadBlock_done _ s (by omega)]
  refine ⟨fun r => ?_, sameMemory_setRegsFrom s a _, setRegsFrom_eq _ s a⟩
  have hreg := reg_setRegsFrom_take s a x r (x.val + 1)
  rw [List.take_of_length_le hlen.le] at hreg
  exact hreg.trans (if_congr (and_iff_left_of_imp Nat.lt_succ_of_le) rfl rfl)

/-- The loop registers whose address is at most 4095 are loaded, and the first address past memory is reported. -/
theorem loadBlock_cutShort (s : State) {a : Nat} {x : RegIdx} (h : 4095 < a + x.val) :
    Reports 2#3 (BitVec.ofNat 16 (max a 4096)) (s.pc - 2#16) (s.loadBlock a (regsUpTo x)).state ∧
      (∀ r : RegIdx, (s.loadBlock a (regsUpTo x)).state.reg r =
        if r.val ≤ x.val ∧ a + r.val ≤ 4095 then s.readByte (a + r.val) else s.reg r) ∧
      SameMemory s (s.loadBlock a (regsUpTo x)).state ∧
      (s.loadBlock a (regsUpTo x)).state.sansReport s =
        { s with v := (s.loadBlock a (regsUpTo x)).state.v } := by
  have hlen := regsUpTo_length x
  rw [loadBlock_raised _ s (by omega) (by omega)]
  refine ⟨?_, fun r => ?_, sameMemory_setRegsFrom s a _, ?_⟩
  · exact setRegsFrom_pc s a _ ▸ reports_raiseHere _ _
  · have hfits : r.val < 4096 - a ↔ a + r.val ≤ 4095 := by omega
    exact (reg_setRegsFrom_take s a x r (4096 - a)).trans (if_congr (and_congr_right' hfits) rfl rfl)
  · rw [setRegsFrom_eq]
    exact sansReport_raiseHere_memory s _ s.mem _

/-! ### The statements -/

/-- Settles O32: FX33 is a block store of the three digits. -/
theorem bcdStoresThreeDigits : Obligations.BcdStoresThreeDigits := by
  refine fun x => ⟨decodeWord_familyF x 0x33, ?_⟩
  rintro s _ _ _ hs rfl rfl rfl
  have hlen : (bcdDigits (s.reg x)).length = 3 := rfl
  refine ⟨fun hfit => ?_, fun hbad => ?_⟩
  · obtain ⟨hbytes, honly⟩ := storeBlock_fits s.i.toNat (bcdDigits (s.reg x)) hs (by omega)
    exact ⟨_, rfl, fun k hk => (congrArg BitVec.toNat (hbytes k hk)).trans (toNat_bcdDigits _ hk), honly⟩
  · obtain ⟨hreport, hbytes, hframe⟩ := storeBlock_cutShort s.i.toNat (bcdDigits (s.reg x)) hs (by omega)
      (by omega)
    exact ⟨_, rfl, hreport, fun k hk ha => (congrArg BitVec.toNat (hbytes k hk ha)).trans (toNat_bcdDigits _ hk), hframe⟩

/-- Settles O33: FX55 is a block store of the loop registers. -/
theorem storeWritesRegistersToMemory : Obligations.StoreWritesRegistersToMemory := by
  refine fun x => ⟨decodeWord_familyF x 0x55, ?_⟩
  rintro s _ hs rfl
  have hlen := length_map_regsUpTo s.reg x
  refine ⟨fun hfit => ?_, fun hbad => ?_⟩
  · obtain ⟨hbytes, honly⟩ := storeBlock_fits s.i.toNat ((regsUpTo x).map s.reg) hs (by omega)
    refine ⟨_, rfl, fun r hr => ?_, hlen ▸ honly⟩
    exact (hbytes r.val (by omega)).trans (getElem_map_regsUpTo s.reg _)
  · obtain ⟨hreport, hbytes, hframe⟩ := storeBlock_cutShort s.i.toNat ((regsUpTo x).map s.reg) hs (by omega)
      (by omega)
    refine ⟨_, rfl, hreport, fun r hr ha => ?_, hframe⟩
    exact (hbytes r.val (by omega) ha).trans (getElem_map_regsUpTo s.reg _)

/-- Settles O34: FX65 is a block load of the loop registers, of all of them or of those whose address exists. -/
theorem loadReadsRegistersFromMemory : Obligations.LoadReadsRegistersFromMemory := by
  refine fun x => ⟨decodeWord_familyF x 0x65, ?_⟩
  rintro s _ rfl
  exact ⟨fun hfit => ⟨_, rfl, loadBlock_fits s hfit⟩, fun hbad => ⟨_, rfl, loadBlock_cutShort s hbad⟩⟩

/-- Settles O35: the bytes the load reads are the registers the store wrote, and neither writes `I`. -/
theorem storeThenLoadRoundTrips : Obligations.StoreThenLoadRoundTrips := by
  intro x s t u hs hfit hstore hmem hparams hi
  obtain ⟨t', hstore', hbytes, -, ht⟩ := ((storeWritesRegistersToMemory x).2 s _ hs rfl).1 hfit
  obtain rfl : t = t' := Host.Outcome.next.inj (hstore.symm.trans hstore')
  have hbase : u.i = s.i := by rw [hi, ht]
  obtain ⟨w, hload, hregs, -⟩ := ((loadReadsRegistersFromMemory x).2 u _ rfl).1 (by rwa [hbase])
  refine ⟨w, hload, fun r hr => ?_, fun r hr => ?_⟩
  · calc w.reg r
      _ = u.readByte (u.i.toNat + r.val) := (hregs r).trans (if_pos hr)
      _ = t.readByte (s.i.toNat + r.val) := by rw [hbase, readByte_congr hmem hparams]
      _ = s.reg r := hbytes r hr
  · exact (hregs r).trans (if_neg (by omega))

/-- Settles O31. -/
theorem indexInstructionsWriteIndex : Obligations.IndexInstructionsWriteIndex := by
  refine ⟨fun nnn => ⟨decodeWord_encode (i := .ldI nnn) rfl, fun s => ⟨_, rfl, toNat_zextImm nnn, onlyI_setI s _⟩⟩,
    fun x => ⟨decodeWord_familyF x 0x1E, decodeWord_familyF x 0x29, fun s => ⟨?_, ?_⟩⟩⟩
  · exact ⟨_, rfl, toNat_add_zextByte s.i (s.reg x), onlyI_setI s _⟩
  · exact ⟨_, rfl, toNat_glyphAddr s.params.fontBase (s.reg x), onlyI_setI s _⟩

end Sys2Proof.Machine

/-! PROOFS of the statements about the display (43_display.md): what DXYN leaves where its rows can be read, said once as
`Drawn`, and what it reports where one cannot; a draw of no rows and two draws in a row follow from `Drawn`. -/

namespace Sys2Proof.Machine

/-! ### The sprite of a DXYN -/

/-- The `n` rows at `I`. -/
def State.spriteRows (s : State) (n : Nat) : List Byte := (List.range n).map fun k => s.readByte (s.baseAddr + k)

/-- Whether the sprite that `DRW Vx, Vy, n` draws sets its bit over `(px, py)`: only the start is reduced (R194, R196). -/
def State.spriteOver (s : State) (x y : RegIdx) (n : Nat) (px : Fin 64) (py : Fin 32) : Bool :=
  spriteBit (s.spriteRows n) ((s.reg x).toNat % 64) ((s.reg y).toNat % drawYModulus s.params.drawYStartMod) px py

section
variable {s t : State} {x y : RegIdx} {n : Nat}

/-- Rows that exist are read, and no row is read whatever `I` is (D19). -/
theorem readBlock_spriteRows (h : n = 0 ∨ s.i.toNat + n ≤ 4096) : s.readBlock s.baseAddr n = .ok (s.spriteRows n) := by
  rcases h with rfl | h
  · rfl
  · exact readBlock_ok s h

theorem spriteOver_zero (px : Fin 64) (py : Fin 32) : s.spriteOver x y 0 px py = false := by
  simp [State.spriteOver, State.spriteRows, spriteBit]

/-- The sprite depends on the parameters, memory, `I` and the two origin registers. -/
theorem spriteOver_congr (ht : t = { s with v := t.v, fb := t.fb }) (hx : t.reg x = s.reg x) (hy : t.reg y = s.reg y) :
    t.spriteOver x y n = s.spriteOver x y n := by
  have hrows : t.spriteRows n = s.spriteRows n := by rw [ht]; rfl
  have hparams : t.params = s.params := by rw [ht]
  funext px py
  rw [State.spriteOver, State.spriteOver, hrows, hx, hy, hparams]

/-- The blit toggles the pixels under the sprite and collects whether one of them was on. -/
theorem blit_spriteRows (s : State) (x y : RegIdx) (n : Nat) :
    (∀ px py, (s.blit (s.reg x) (s.reg y) (s.spriteRows n)).fb.pixel px py =
      (s.pixel px py ^^ s.spriteOver x y n px py)) ∧
    ((s.blit (s.reg x) (s.reg y) (s.spriteRows n)).coll = true ↔
      ∃ px py, s.pixel px py = true ∧ s.spriteOver x y n px py = true) := by
  have hclip : s.params.edgePolicy = .clip := by cases s.params.edgePolicy; rfl
  obtain ⟨hpixel, hcoll⟩ := rows_spec ((s.reg x).toNat % 64)
    ((s.reg y).toNat % drawYModulus s.params.drawYStartMod) (s.spriteRows n) ⟨s.fb, false⟩
  rw [State.blit, hclip]
  exact ⟨hpixel, hcoll.trans (or_iff_right Bool.false_ne_true)⟩

end

/-! ### What a draw leaves -/

/-- Some pixel went off between `s` and `t`. -/
abbrev Collides (s t : State) : Prop := ∃ px py, s.pixel px py = true ∧ t.pixel px py = false

theorem not_collides {s t : State} (h : ∀ px py, s.pixel px py = true → t.pixel px py = true) : ¬ Collides s t :=
  fun ⟨px, py, hon, hoff⟩ => Bool.false_ne_true (hoff.symm.trans (h px py hon))

/-- `t` is `s` with the sprite drawn (R192): its pixels toggled, VF the collision, nothing else changed. -/
structure Drawn (x y : RegIdx) (n : Nat) (s t : State) : Prop where
  pixel : ∀ px py, t.pixel px py = (s.pixel px py ^^ s.spriteOver x y n px py)
  flag  : t.reg vf = flagByte (decide (Collides s t))
  regs  : SameRegsBut [vf] s t
  frame : t = { s with v := t.v, fb := t.fb }

/-- The state after the blit `b`: its picture and its flag. -/
def State.afterBlit (s : State) (b : Blit) : State :=
  ((s.setReg vf 0x00#8).setFb b.fb).setReg vf (flagByte b.coll)

theorem sameRegsBut_afterBlit (s : State) (b : Blit) : SameRegsBut [vf] s (s.afterBlit b) := fun r hr => by
  have hvf : r ≠ vf := List.ne_of_not_mem_cons hr
  exact (reg_setReg_other _ hvf _).trans (reg_setReg_other s hvf _)

theorem flagByte_eq_one_iff (f : Bool) : flagByte f = 0x01#8 ↔ f = true := by revert f; decide

section
variable {s t : State} {x y : RegIdx} {n : Nat}

/-- A blit that toggles the sprite's pixels and collects whether one of them was on draws the sprite. -/
theorem drawn_afterBlit {b : Blit} (hpixel : ∀ px py, b.fb.pixel px py = (s.pixel px py ^^ s.spriteOver x y n px py))
    (hcoll : b.coll = true ↔ ∃ px py, s.pixel px py = true ∧ s.spriteOver x y n px py = true) :
    Drawn x y n s (s.afterBlit b) := by
  have hflag : b.coll = decide (Collides s (s.afterBlit b)) := by
    rw [Bool.eq_iff_iff, hcoll, decide_eq_true_iff]
    refine exists₂_congr fun px py => and_congr_right fun hon => ?_
    have htoggled : (s.afterBlit b).pixel px py = !s.spriteOver x y n px py := by
      rw [← Bool.true_xor, ← hon]
      exact hpixel px py
    rw [htoggled, Bool.not_eq_false']
  exact ⟨hpixel, (reg_setReg_same _ _ _).trans (congrArg flagByte hflag), sameRegsBut_afterBlit s b, rfl⟩

namespace Drawn

theorem sameMemory (h : Drawn x y n s t) : SameMemory s t := fun _ => by rw [h.frame]; rfl

theorem flag_eq_one_iff (h : Drawn x y n s t) : t.reg vf = 0x01#8 ↔ Collides s t := by
  rw [h.flag, flagByte_eq_one_iff, decide_eq_true_iff]

theorem flag_eq_zero (h : Drawn x y n s t) (hc : ¬ Collides s t) : t.reg vf = 0x00#8 := by
  rw [h.flag, decide_eq_false hc]; rfl

/-- A second draw at the same origin toggles the same pixels again (R197). -/
theorem fb_twice {u : State} (h : Drawn x y n s t) (h' : Drawn x y n t u) (hx : x ≠ vf) (hy : y ≠ vf) :
    u.fb = s.fb := by
  have hsprite : t.spriteOver x y n = s.spriteOver x y n :=
    spriteOver_congr h.frame (h.regs x (mt List.mem_singleton.1 hx)) (h.regs y (mt List.mem_singleton.1 hy))
  refine fb_ext fun px py => ?_
  calc u.pixel px py
    _ = ((s.pixel px py ^^ s.spriteOver x y n px py) ^^ s.spriteOver x y n px py) := by
      rw [h'.pixel, h.pixel, hsprite]
    _ = s.pixel px py := by rw [Bool.xor_assoc, Bool.xor_self, Bool.xor_false]

end Drawn

end

section
variable {s : State} (x y : RegIdx) {n : Fin 16}

theorem exec_drw_done (h : n.val = 0 ∨ s.i.toNat + n.val ≤ 4096) :
    ∃ t, exec (.drw x y n) s = .next t ∧ Drawn x y n.val s t := by
  obtain ⟨hpixel, hcoll⟩ := blit_spriteRows s x y n.val
  refine ⟨_, ?_, drawn_afterBlit hpixel hcoll⟩
  rw [exec, execDrw, readBlock_spriteRows h]
  rfl

theorem exec_drw_raised (hn : 0 < n.val) (h : 4096 < s.i.toNat + n.val) :
    exec (.drw x y n) s = .next (s.raiseHere (.memory (firstBad s.i.toNat))) := by
  rw [exec, execDrw, State.baseAddr, readBlock_error s h hn]

end

/-! ### The statements -/

/-- Settles O37: both outcomes of a draw, with the start modulus as the parameter says. -/
theorem drawTogglesSpritePixels : Obligations.DrawTogglesSpritePixels := by
  refine fun x y n => ⟨decodeWord_encode (i := .drw x y n) rfl, ?_⟩
  rintro s _ m _ rfl hm rfl
  have hmod : drawYModulus s.params.drawYStartMod = m := by
    rcases hm with ⟨hmode, rfl⟩ | ⟨hmode, rfl⟩ <;> rw [hmode] <;> rfl
  subst hmod
  refine ⟨fun hfit => ?_, fun hn hbad => ?_⟩
  · obtain ⟨t, hexec, hdrawn⟩ := exec_drw_done x y hfit
    refine ⟨t, hexec, hdrawn.pixel, ?_, hdrawn.regs, hdrawn.sameMemory, hdrawn.frame⟩
    by_cases hc : Collides s t
    · exact .inl ⟨hdrawn.flag_eq_one_iff.2 hc, hc⟩
    · exact .inr ⟨hdrawn.flag_eq_zero hc, hc⟩
  · exact ⟨_, exec_drw_raised x y hn hbad, reports_raiseHere s _, fun _ => rfl,
      sansReport_raiseHere_memory s s.v s.mem _⟩

/-- Settles O39: over a picture that the first draw takes nothing from, the second one takes off what the first put on. -/
theorem drawTwiceRestoresPicture : Obligations.DrawTwiceRestoresPicture := by
  intro x y n s hx hy hfit
  obtain ⟨t, hexec, hdrawn⟩ := exec_drw_done x y hfit
  have hi : t.i = s.i := by rw [hdrawn.frame]
  obtain ⟨u, hexec', hdrawn'⟩ := exec_drw_done (s := t) x y (by rwa [hi])
  have hfb : u.fb = s.fb := hdrawn.fb_twice hdrawn' hx hy
  refine ⟨t, u, hexec, hexec', hfb, fun hkeeps => ⟨hdrawn.flag_eq_zero (not_collides hkeeps), ?_⟩⟩
  refine hdrawn'.flag_eq_one_iff.trans (exists₂_congr fun px py => ?_)
  have hu : u.pixel px py = s.pixel px py := congrArg (FrameBuffer.pixel · px py) hfb
  rw [hu]
  cases hs : s.pixel px py with
  | false => simp
  | true => simp [hkeeps px py hs]

/-- Settles O36. -/
theorem clearTurnsEveryPixelOff : Obligations.ClearTurnsEveryPixelOff :=
  ⟨decodeWord_encode (i := .cls) rfl, fun _ => ⟨_, rfl, pixel_clear, fun _ => rfl, rfl⟩⟩

/-- Settles O38: a sprite of no rows has no bit to toggle. -/
theorem drawOfNoRowsOnlyClearsFlag : Obligations.DrawOfNoRowsOnlyClearsFlag := by
  intro x y s
  obtain ⟨t, hexec, hdrawn⟩ := exec_drw_done (s := s) (n := 0) x y (.inl rfl)
  have hpixel : ∀ px py, t.pixel px py = s.pixel px py := fun px py => by
    rw [hdrawn.pixel]
    exact (congrArg _ (spriteOver_zero px py)).trans (Bool.xor_false _)
  have hnone : ¬ Collides s t := not_collides fun px py hon => (hpixel px py).trans hon
  have hfb : t.fb = s.fb := fb_ext hpixel
  exact ⟨t, hexec, hdrawn.flag_eq_zero hnone, hpixel, hdrawn.regs, hdrawn.sameMemory, hfb ▸ hdrawn.frame⟩

end Sys2Proof.Machine

/-! PROOFS of the statements about the keypad and the timers (44_keypad_timers.md): the two outcomes of a key skip, said
once for EX9E and EXA1 together, and the two of FX0A; the timer instructions are one write each. -/

namespace Sys2Proof.Machine

/-! ### Words of family E -/

/-- A word of family E decodes by its low byte (30_encoding.md R95). -/
theorem decodeWord_familyE (x : RegIdx) (f : Byte) :
    decodeWord (BitVec.ofNat 16 (0xE000 + f.toNat + x.val * 256)) = decodeFamilyE x f.toNat := by
  have hword : BitVec.ofNat 16 (0xE000 + f.toNat + x.val * 256) = formatI 0xE x f := by
    rw [formatI]; congr 1; omega
  simp [hword, decodeWord]

/-! ### The key skips and the wait for a key -/

/-- A key number survives being stored in a register. -/
theorem toNat_keyByte (k : KeyIdx) : (BitVec.ofNat 8 k.val).toNat = k.val := by
  rw [BitVec.toNat_ofNat]; omega

section
variable {s : State} {x : RegIdx} {k : KeyIdx} {skips : KeyIdx → Bool}

theorem keySkip_done (h : (s.reg x).toNat = k.val) : keySkip x skips s = .next (s.skipIf (skips k)) := by
  have hk : (s.reg x).toNat < 16 := h ▸ k.isLt
  obtain rfl : ⟨(s.reg x).toNat, hk⟩ = k := Fin.ext h
  rw [keySkip, keyOperand_ok _ hk]

/-- A number above 15 names no key (D20). -/
theorem keySkip_raised (h : 15 < (s.reg x).toNat) : keySkip x skips s = .next (s.raiseHere (.key (s.reg x))) := by
  rw [keySkip, keyOperand_error _ h]

theorem exec_ldVxK_stored (h : s.firstKey = some k) :
    exec (.ldVxK x) s = .next (s.setReg x (BitVec.ofNat 8 k.val)) := by
  rw [exec, execLdVxK, h]

theorem exec_ldVxK_waits (h : s.firstKey = none) : exec (.ldVxK x) s = .next s.stepBack := by
  rw [exec, execLdVxK, h]

end

/-! ### The statements -/

/-- Settles O40: both instructions are the one key skip, for the held keys and for the others. -/
theorem keySkipsTestHeldKey : Obligations.KeySkipsTestHeldKey := by
  refine fun x => ⟨decodeWord_familyE x 0x9E, decodeWord_familyE x 0xA1, fun s =>
    ⟨fun k hk => ⟨?_, ?_⟩, fun hbad i hi => ?_⟩⟩
  · exact ⟨_, keySkip_done hk, skipIf_pc s _, onlyPc_skipIf s _⟩
  · refine ⟨_, keySkip_done hk, (skipIf_pc s _).trans ?_, onlyPc_skipIf s _⟩
    cases s.keyHeld k <;> rfl
  · have hexec : exec i s = .next (s.raiseHere (.key (s.reg x))) := by
      simp only [List.mem_cons, List.not_mem_nil, or_false] at hi
      obtain rfl | rfl := hi
      · exact keySkip_raised hbad
      · exact keySkip_raised hbad
    exact ⟨_, hexec, reports_raiseHere s _, fun _ => rfl, rfl⟩

/-- Settles O41: the two clauses are the two answers of the search for a held key. -/
theorem waitTakesLowestHeldKey : Obligations.WaitTakesLowestHeldKey := by
  refine fun x => ⟨decodeWord_familyF x 0x0A, fun s => ⟨fun k hheld hlower => ?_, fun hnone => ?_⟩⟩
  · refine ⟨_, exec_ldVxK_stored (firstKey_some.2 ⟨hheld, hlower⟩), ?_, onlyRegs_setReg s x _⟩
    rw [reg_setReg_same, toNat_keyByte]
  · exact ⟨_, exec_ldVxK_waits (firstKey_none.2 hnone), rfl, onlyPc_setPc s _⟩

/-- Settles O42. -/
theorem timerInstructionsMoveTimers : Obligations.TimerInstructionsMoveTimers :=
  fun x => ⟨decodeWord_familyF x 0x07, decodeWord_familyF x 0x15, decodeWord_familyF x 0x18, fun s =>
    ⟨⟨_, rfl, reg_setReg_same s x s.dt, onlyRegs_setReg s x s.dt⟩,
      ⟨_, rfl, setDt_dt s (s.reg x), fun a => readByte_setDt s (s.reg x) a, rfl⟩,
      ⟨_, rfl, setSt_st s (s.reg x), fun a => readByte_setSt s (s.reg x) a, rfl⟩⟩⟩

end Sys2Proof.Machine

/-! PROOFS of the statements about the exceptions (60_exceptions.md): what a raise leaves in the latches, and what a
transaction can do to a halted core, said once; then the statements. -/

namespace Sys2Proof.Machine

/-! ### The transaction that comes next -/

section
variable {s : State}

theorem step_eq_transact (s : State) : step s = transact (nextTransaction s) s.afterTake := by
  rw [step, takeTransaction_eq]

/-- What comes next is scheduled, unless it is a Cycle. -/
theorem head?_of_nextTransaction {x : Transaction} (h : nextTransaction s = x) (hx : ∀ rnd, x ≠ .cycle rnd) :
    s.pending.head? = some x := by
  cases hp : s.pending with
  | nil =>
    rw [nextTransaction, hp] at h
    exact absurd h.symm (hx _)
  | cons y rest =>
    rw [nextTransaction, hp] at h
    exact congrArg some h

theorem nextTransaction_cycle (h : (∃ rnd, s.pending.head? = some (.cycle rnd)) ∨ s.pending = []) :
    ∃ rnd, nextTransaction s = .cycle rnd := by
  cases hp : s.pending with
  | nil => exact ⟨Config.rnd s.draws, by rw [nextTransaction, hp]⟩
  | cons x rest => simpa [nextTransaction, hp] using h

end

/-! ### Reports -/

section
variable {s u : State}

theorem FixedParts.reportsAgree (h : FixedParts s u) (hs : s.ReportsAgree) : u.ReportsAgree := by
  rw [State.ReportsAgree, h.errCause, h.status, h.errVal, h.errAddr, h.condSeen]
  exact hs

/-- A raise of a running core leaves its report in agreement, whatever the latches held before. -/
theorem raise_reportsAgree (hs : s.status = .running) (c : Condition) (addr : Word) :
    (s.raise c addr).ReportsAgree := by
  obtain ⟨hlow, hhigh⟩ := cause_range c
  have hne0 : c.cause ≠ 0#3 := fun h => by rw [h] at hlow; exact absurd hlow (by decide)
  have hne7 : c.cause ≠ 7#3 := fun h => by rw [h] at hhigh; exact absurd hhigh (by decide)
  refine ⟨hne7, fun hhalted => ?_, fun h0 => absurd h0 hne0, fun _ => rfl⟩
  rw [raise_status, hs] at hhalted
  exact (status_halted_iff c).1 hhalted

theorem resetCore_reportsAgree (s : State) : s.resetCore.ReportsAgree :=
  ⟨(by decide : 0#3 ≠ 7#3), nofun, fun _ => ⟨rfl, rfl⟩, absurd rfl⟩

theorem runningCycle_reportsAgree {t : State} {rnd : Byte} (hrun : s.status = .running) (hs : s.ReportsAgree)
    (h : runningCycle rnd s = .next t) : t.ReportsAgree := by
  obtain ⟨u, hu, rfl | ⟨c, rfl⟩⟩ := runningCycle_inv h
  · exact hu.fixed.reportsAgree hs
  · exact raise_reportsAgree (hu.fixed.status.trans hrun) c s.pc

end

/-! ### Transactions of a halted core -/

/-- A Load writes memory and its answer, which is not a refusal. -/
theorem load_cases (s : State) (bytes : List Byte) :
    ∃ m r, s.load bytes = { s with mem := m, result := r } ∧ r ≠ .refusedHalted := by
  rcases Nat.lt_or_ge 3584 bytes.length with h | h
  · exact ⟨s.mem, _, load_tooLarge s h, nofun⟩
  · exact ⟨_, _, load_fits s h, nofun⟩

/-- Every transaction but a Cycle goes through, whatever the status is (60_exceptions.md R252). -/
theorem transact_accepted {x : Transaction} (hx : ∀ rnd, x ≠ .cycle rnd) (s : State) :
    ∃ t, transact x s = .next t ∧ t.result ≠ .refusedHalted := by
  cases x with
  | cycle rnd => exact absurd rfl (hx rnd)
  | load bytes =>
    obtain ⟨m, r, hload, hr⟩ := load_cases s bytes
    exact ⟨_, congrArg Host.Outcome.next hload, hr⟩
  | reset | tick | setKey | observe => exact ⟨_, rfl, nofun⟩

/-- What the transaction `x` may have changed between `s` and `t` when it is not a Reset and the core is halted. -/
structure HaltedFrame (x : Transaction) (s t : State) : Prop where
  frame : t = { s with mem := t.mem, key := t.key, dt := t.dt, st := t.st, result := t.result }
  mem   : t.mem ≠ s.mem → ∃ rom, x = .load rom
  key   : t.key ≠ s.key → ∃ k p, x = .setKey k p
  dt    : t.dt ≠ s.dt → x = .tick
  st    : t.st ≠ s.st → x = .tick

theorem transact_haltedFrame {x : Transaction} {s t : State} (hs : s.status = .halted) (hx : x ≠ .reset)
    (h : transact x s = .next t) : HaltedFrame x s t := by
  cases x with
  | reset => exact absurd rfl hx
  | load bytes =>
    obtain ⟨m, r, hload, -⟩ := load_cases s bytes
    cases h.symm.trans (congrArg Host.Outcome.next hload)
    exact ⟨rfl, fun _ => ⟨bytes, rfl⟩, absurd rfl, absurd rfl, absurd rfl⟩
  | cycle rnd =>
    cases h.symm.trans (cycle_halted hs rnd)
    exact ⟨rfl, absurd rfl, absurd rfl, absurd rfl, absurd rfl⟩
  | tick => cases h; exact ⟨rfl, absurd rfl, absurd rfl, fun _ => rfl, fun _ => rfl⟩
  | setKey k p => cases h; exact ⟨rfl, absurd rfl, fun _ => ⟨k, p, rfl⟩, absurd rfl, absurd rfl⟩
  | observe what => cases h; exact ⟨rfl, absurd rfl, absurd rfl, absurd rfl, absurd rfl⟩

/-! ### The statements -/

/-- Settles O49: a raise leaves its own report, a Reset clears it, and nothing else writes the latches, the status or
the mark. -/
theorem stepKeepsReportsInAgreement : Obligations.StepKeepsReportsInAgreement := by
  intro s t hs h
  cases step_inv h with
  | reset => exact resetCore_reportsAgree s.afterTake
  | load bytes => exact (load_fixedParts s.afterTake bytes).reportsAgree hs
  | ran rnd hrun ht => exact runningCycle_reportsAgree (s := s.afterTake) hrun hs ht
  | refused | tick | setKey | observe => exact hs

/-- Settles O10: a Cycle, scheduled or by default, is refused; no other transaction asks for the status. -/
theorem haltedRefusesOnlyCycles : Obligations.HaltedRefusesOnlyCycles := by
  refine ⟨fun s hs hnext => ?_, fun s x rest _ hp hx => ?_⟩
  · obtain ⟨rnd, hrnd⟩ := nextTransaction_cycle hnext
    rw [step_eq_transact, hrnd]
    exact cycle_halted (s := s.afterTake) hs rnd
  · rw [step_of_pending hp]
    exact transact_accepted hx _

/-- Settles O46, by the frame of a halted core's transactions; the writers of `M`, `KEY` and the timers are no Cycles,
so they head the schedule. -/
theorem haltedKeepsItsReport : Obligations.HaltedKeepsItsReport := by
  intro s t hs hreset h
  rw [step_eq_transact] at h
  have hx : nextTransaction s ≠ .reset := fun hx => hreset (head?_of_nextTransaction hx nofun)
  obtain ⟨hframe, hmem, hkey, hdt, hst⟩ := transact_haltedFrame (s := s.afterTake) hs hx h
  rw [hframe]
  refine ⟨hs, rfl, rfl, rfl, rfl, rfl, rfl, rfl, rfl, rfl, fun hne => ?_, fun hne => ?_, fun hne => ?_⟩
  · exact (hmem hne).imp fun _ hload => head?_of_nextTransaction hload nofun
  · exact (hkey hne).imp fun _ => Exists.imp fun _ hset => head?_of_nextTransaction hset nofun
  · exact head?_of_nextTransaction (hne.elim hdt hst) nofun

/-- Settles O4. -/
theorem tickCountsBothTimersDown : Obligations.TickCountsBothTimersDown :=
  fun s _ hp => ⟨_, step_of_pending hp, countDown_toNat s.dt, countDown_toNat s.st, fun _ => rfl, rfl⟩

end Sys2Proof.Machine

/-! PROOFS of the statements about reset and hazards (70_reset_and_hazards.md): the launch state is what a Load makes of
the reset values; every transaction has a next state; a Cycle that meets a self-jump. -/

namespace Sys2Proof.Machine

/-! ### The launch state -/

section
variable {s t : State} {font rom : List Byte}

/-- A Load of a ROM that fits puts it beside the font: the font ends below 0x200 (00_scope.md R7). -/
theorem memoryHolds_load (hs : s.MemoryHolds font []) (hparams : t.params = s.params)
    (hrom : ∀ k, k < rom.length → t.readByte (0x200 + k) = rom.getD k 0x00#8)
    (hout : SameMemoryOutside 0x200 rom.length s t) : t.MemoryHolds font rom := by
  obtain ⟨hfont, -, hzero⟩ := hs
  have hbase := s.params.fontBase.isLt
  rw [State.MemoryHolds, hparams]
  refine ⟨fun k hk => ?_, hrom, fun a hbeside ha => ?_⟩
  · exact (hout _ (.inl (by omega))).trans (hfont k hk)
  · exact (hout a ha).trans (hzero a hbeside (Nat.lt_or_ge a 0x200))

/-- A step that takes a Load of a ROM that fits leads from the reset values to the launch state of that ROM. -/
theorem step_load_launches {rest : List Transaction} (hp : s.pending = .load rom :: rest) (hfits : rom.length ≤ 3584)
    (hs : s.AtResetValues font) (hmem : s.MemCanonical) :
    ∃ t, step s = .next t ∧ t.Launched font rom ∧ t.params = s.params ∧ t.pending = rest ∧ t.result = .ok ∧
      t.condSeen = s.condSeen ∧ t.MemCanonical := by
  obtain ⟨hregs, hholds⟩ := hs
  obtain ⟨t, hstep, hrom, hout, ht⟩ := (loadWritesRomOrNothing s rom rest hp hmem).1 hfits
  have hparams : t.params = s.params := by rw [ht]
  have hbut : t.AtResetButMemory := by rw [ht]; exact hregs
  refine ⟨t, hstep, ⟨hfits, hbut, memoryHolds_load hholds hparams hrom hout⟩, hparams, ?_, ?_, ?_,
    stepKeepsMemoryCanonical s t hmem hstep⟩
  all_goals rw [ht]

end

/-! ### Every transaction has a next state -/

theorem runningCycle_next (rnd : Byte) (s : State) : ∃ t, runningCycle rnd s = .next t := by
  by_cases hpc : s.PcLegal
  · cases hd : decodeWord s.fetchWord with
    | none => exact ⟨_, runningCycle_illegalWord hpc hd⟩
    | some i =>
      obtain ⟨p, hexec, -⟩ := exec_runs i (s.beginCycle rnd).advance
      exact ⟨p.state, (runningCycle_decoded hpc hd).trans hexec⟩
  · exact ⟨_, runningCycle_illegalPc hpc⟩

theorem cycle_next (rnd : Byte) (s : State) : ∃ t, cycle rnd s = .next t := by
  cases hs : s.status with
  | running => exact cycle_running hs rnd ▸ runningCycle_next rnd s
  | halted => exact ⟨_, cycle_halted hs rnd⟩

theorem transact_next (x : Transaction) (s : State) : ∃ t, transact x s = .next t := by
  cases x with
  | cycle rnd => exact cycle_next rnd s
  | reset | load | tick | setKey | observe => exact ⟨_, rfl⟩

/-! ### A jump to itself -/

theorem decodeWord_of_finishedAt {s : State} {a : Imm12} (h : s.FinishedAt a) :
    decodeWord s.fetchWord = some (.jp a) := by
  obtain ⟨hpc, hword⟩ := h
  rw [State.fetchWord, hpc, toNat_zextImm, hword]
  exact decodeWord_encode rfl

/-! ### The statements -/

/-- Settles O6: Reset, under any parameters, gives the reset values with an empty memory list, and the Load launches
from there. -/
theorem loadAfterResetLaunches : Obligations.LoadAfterResetLaunches := by
  refine fun rom rest hfits => ⟨fun p => ?_, fun s hp => ?_⟩
  · exact step_load_launches (s := { State.resetWith p with pending := .load rom :: rest }) rfl hfits
      (resetWith_atResetValues p) nil_wf
  · obtain ⟨t, ht⟩ := step_load_launches (s := State.resetCore { s with pending := .load rom :: rest }) rfl hfits
      (resetWith_atResetValues s.params) nil_wf
    exact ⟨_, t, step_of_pending hp, ht⟩

/-- Settles O11: a step is the transaction that comes next. -/
theorem everyStateHasNextState : Obligations.EveryStateHasNextState := fun s => by
  rw [step_eq_transact]
  exact transact_next _ _

/-- Settles O13: the jump puts back the `PC` that the advance moved. -/
theorem selfJumpChangesNothing : Obligations.SelfJumpChangesNothing := by
  intro s rnd a hc hpc hfin
  have htarget : s.pc = zextImm a := hfin.1
  rw [(fetchChecksProgramCounter s rnd hc).2 hpc _ (decodeWord_of_finishedAt hfin), htarget]
  rfl

/-- Settles O7. -/
theorem stepRunsDecodedInstruction : Obligations.StepRunsDecodedInstruction := fun _ _ _ => step_of_executes

/-- Settles O57: the value answered is `observed` of the piece named. -/
theorem observationAnswersState : Obligations.ObservationAnswersState := by
  intro s what rest hp
  have hname {piece : Observable} (h : what = piece) : s.observed what = s.observed piece := congrArg s.observed h
  exact ⟨s.observed what, step_of_pending hp, fun _ => hname, hname, hname, fun _ => hname, hname, hname, hname, hname,
    fun _ => hname, fun _ => hname, hname, hname, hname, hname⟩

end Sys2Proof.Machine
